-- ==== Sys2Proof/Word.lean ====
section
/-! DEFINITION. The word and register-index types of the machine (`00_scope.md` R6). -/

namespace Sys2Proof

/-- The 16-bit unsigned quantity of `00_scope.md` R6: every register, memory cell, address and instruction. -/
abbrev Word := BitVec 16

/-- A register index (`10_state.md` R11, `30_encoding.md` R54): value `i` names `Ri`, and all eight are legal. -/
abbrev Reg := Fin 8

end Sys2Proof
end

