-- ==== Sys2Proof/Config.lean ====
section
/-! DEFINITION. What is fixed for the machine: its sizes (`00_scope.md` R5, the values the source states) and the FREE VALUES, constants with no body about which nothing can be proved. The parameters that the spec decides itself stand in `Sys2Proof/Machine/Params.lean`. -/

namespace Sys2Proof.Config

/-- `WORD_BITS` of R5: the width of every register, memory cell and instruction. -/
def wordBits : Nat := 16

/-- `MEM_WORDS` of R5: the number of memory cells. -/
def memWords : Nat := 65536

/-- FREE VALUE: the console's answer number `n` to `KeyAvailable` once the schedule of `State.console` is exhausted. "no rule constrains them" (`20_memory.md` R45). Log 17. -/
opaque freeKeyAnswer : Nat → Bool

/-- FREE VALUE: the code that answer number `n` of `ReadChar` or `ReadCharEcho` returns once the input stream of `State.console` is exhausted (`20_memory.md` R45). Log 17. -/
opaque freeCode : Nat → Word

/-- FREE VALUE: the text of the IN prompt, the OPEN parameter `IN_PROMPT` without a default (`00_scope.md` R5, D11). Log 11. -/
opaque freePrompt : List Word

end Sys2Proof.Config
end

