-- ==== Sys2Proof/Syntax.lean ====
section
/-! DEFINITION. The instructions: the sixteen opcodes (`30_encoding.md` R51) and one constructor of `Instr` for each of the 25 rows of `opcode_table.json` (R60), carrying the fields of R53 with their widths. -/

namespace Sys2Proof

/-- The sixteen opcodes of `30_encoding.md` R51, by mnemonic: "every other rule of this spec refers to opcodes by mnemonic" (R52). -/
inductive Opcode where
  | add | and | not | br | jmp | jsr | ld | ldi | ldr | lea | st | sti | str | trap | rti | res
deriving DecidableEq, Repr

/-- One constructor per row of `opcode_table.json`. Register fields are `Reg`, immediates are the raw field of R56, extended where the instruction uses them. -/
inductive Instr where
  /-- ADD, register form (R80). -/
  | addReg (dst src1 src2 : Reg)
  /-- ADD, immediate form (R81). -/
  | addImm (dst src1 : Reg) (imm5 : BitVec 5)
  /-- AND, register form (R82). -/
  | andReg (dst src1 src2 : Reg)
  /-- AND, immediate form (R83). -/
  | andImm (dst src1 : Reg) (imm5 : BitVec 5)
  /-- NOT (R84). -/
  | not (dst src : Reg)
  /-- BR (R91); `condMask` is `ir[11:9]` as one 3-bit number. -/
  | br (condMask : BitVec 3) (pcOffset9 : BitVec 9)
  /-- JMP, and RET when `base` is 7 (R92). -/
  | jmp (base : Reg)
  /-- JSR with `longFlag` = 1 (R93). -/
  | jsr (pcOffset11 : BitVec 11)
  /-- JSR with `longFlag` = 0, the mnemonic JSRR (R94). -/
  | jsrr (base : Reg)
  /-- LD (R100). -/
  | ld (dst : Reg) (pcOffset9 : BitVec 9)
  /-- LDI (R101). -/
  | ldi (dst : Reg) (pcOffset9 : BitVec 9)
  /-- LDR (R102). -/
  | ldr (dst base : Reg) (offset6 : BitVec 6)
  /-- LEA (R103). -/
  | lea (dst : Reg) (pcOffset9 : BitVec 9)
  /-- ST (R104). -/
  | st (src : Reg) (pcOffset9 : BitVec 9)
  /-- STI (R105). -/
  | sti (src : Reg) (pcOffset9 : BitVec 9)
  /-- STR (R106). -/
  | str (src base : Reg) (offset6 : BitVec 6)
  /-- TRAP 0x20 (R120, R121). -/
  | trapGetc
  /-- TRAP 0x21 (R120, R122). -/
  | trapOut
  /-- TRAP 0x22 (R120, R123). -/
  | trapPuts
  /-- TRAP 0x23 (R120, R124). -/
  | trapIn
  /-- TRAP 0x24 (R120, R125). -/
  | trapPutsp
  /-- TRAP 0x25 (R120, R126). -/
  | trapHalt
  /-- TRAP with any other vector (R120, R127). -/
  | trapUndefined (vector : BitVec 8)
  /-- RTI (R140); its fault records the whole word `ir` (`60_exceptions.md` R151), so the low twelve bits are kept. Log 21. -/
  | rti (low : BitVec 12)
  /-- RES (R141); its fault records the whole word `ir`, so the low twelve bits are kept. Log 21. -/
  | res (low : BitVec 12)
deriving DecidableEq, Repr

namespace Instr

/-- The row of `opcode_table.json` that a constructor stands for, by its mnemonic there. -/
def mnemonic : Instr → String
  | .addReg _ _ _ => "ADD.reg"
  | .addImm _ _ _ => "ADD.imm"
  | .andReg _ _ _ => "AND.reg"
  | .andImm _ _ _ => "AND.imm"
  | .not _ _ => "NOT"
  | .br _ _ => "BR"
  | .jmp _ => "JMP"
  | .jsr _ => "JSR"
  | .jsrr _ => "JSRR"
  | .ld _ _ => "LD"
  | .ldi _ _ => "LDI"
  | .ldr _ _ _ => "LDR"
  | .lea _ _ => "LEA"
  | .st _ _ => "ST"
  | .sti _ _ => "STI"
  | .str _ _ _ => "STR"
  | .trapGetc => "TRAP.GETC"
  | .trapOut => "TRAP.OUT"
  | .trapPuts => "TRAP.PUTS"
  | .trapIn => "TRAP.IN"
  | .trapPutsp => "TRAP.PUTSP"
  | .trapHalt => "TRAP.HALT"
  | .trapUndefined _ => "TRAP.undefined"
  | .rti _ => "RTI"
  | .res _ => "RES"

end Instr

end Sys2Proof
end

