-- ==== Sys2Proof/Machine/Params.lean ====
section
/-! DEFINITION. The parameters of `00_scope.md` R5: the addresses and vectors the source states, and the values the spec decides itself (`92_eei_decisions.md`), each kept as one named definition "so that a later audit can change them without touching a rule". -/

namespace Sys2Proof.Config

/-- The table `OPC` of `30_encoding.md` R52, entry `n` the opcode whose number is `n`. PRESUMED: the LC-3 numbering, the spec's decision D1. Log 1. -/
def opcTable : Vector Opcode 16 :=
  #v[.br, .add, .ld, .st, .jsr, .and, .ldr, .str, .rti, .not, .ldi, .sti, .jmp, .res, .lea, .trap]

/-- `OPC[op]` of `40_execution_cycle.md` R71. -/
def opc (op : BitVec 4) : Opcode := opcTable[op.toNat]

/-- The number of an opcode, read back from the one table. -/
def opcodeNumber (o : Opcode) : BitVec 4 := BitVec.ofNat 4 (opcTable.toList.idxOf o)

/-- `FL_POS` of `10_state.md` R13. PRESUMED: D2, the LC-3 convention. Log 2. -/
def flPos : Word := 0x0001

/-- `FL_ZRO` of `10_state.md` R13. PRESUMED: D2. Log 2. -/
def flZro : Word := 0x0002

/-- `FL_NEG` of `10_state.md` R13. PRESUMED: D2. Log 2. -/
def flNeg : Word := 0x0004

/-- The address of `KBSR` (`20_memory.md` R35). -/
def kbsr : Word := 0xFE00

/-- The address of `KBDR` (`20_memory.md` R35). -/
def kbdr : Word := 0xFE02

/-- `KBSR_READY`, the value a successful poll stores (`20_memory.md` R38). DESIGN CHOICE of the spec, D7. Log 7. -/
def kbsrReady : Word := 0x8000

/-- `PC_RESET` of R5, and the default of `ENTRY_PC` (D16). Log 16. -/
def pcReset : Word := 0x3000

/-- What a memory cell reads as that nothing has written: memory is "zero-initialized" (`10_state.md` R17, R22). -/
def unlistedCell : Word := 0x0000

/-- `FETCH_VIA_MEMREAD` (R5): whether the fetch polls the keyboard at KBSR. DESIGN CHOICE of the spec, D5. Log 5. -/
def fetchViaMemRead : Bool := false

/-- `STRING_VIA_MEMREAD` (R5): whether PUTS and PUTSP poll the keyboard at KBSR. DESIGN CHOICE of the spec, D6. Log 6. -/
def stringViaMemRead : Bool := false

/-- `IN_PROMPT` (R5): uninterpreted, no default. Log 11. -/
def inPrompt : List Word := freePrompt

/-- `HALT_MESSAGE` (R5): by default the empty list. DESIGN CHOICE of the spec, D12. Log 12. -/
def haltMessage : List Word := []

/-- The vector of GETC (`44_trap.md` R120). -/
def vecGetc : BitVec 8 := 0x20

/-- The vector of OUT (`44_trap.md` R120). -/
def vecOut : BitVec 8 := 0x21

/-- The vector of PUTS (`44_trap.md` R120). -/
def vecPuts : BitVec 8 := 0x22

/-- The vector of IN (`44_trap.md` R120). -/
def vecIn : BitVec 8 := 0x23

/-- The vector of PUTSP (`44_trap.md` R120). -/
def vecPutsp : BitVec 8 := 0x24

/-- The vector of HALT (`44_trap.md` R120). -/
def vecHalt : BitVec 8 := 0x25

/-- The six vectors that select a routine; any other is undefined (`44_trap.md` R120, R127). -/
def routineVectors : List (BitVec 8) := [vecGetc, vecOut, vecPuts, vecIn, vecPutsp, vecHalt]

end Sys2Proof.Config
end

