-- ==== Sys2Proof/WellFormed.lean ====
section
/-! DEFINITION. Which terms of `Instr` are instructions of the machine. Every field has its exact width in its type, so one check is left: the row `TRAP.undefined` takes only the vectors that name no routine (`44_trap.md` R127). -/

namespace Sys2Proof.Instr

/-- The check on the vector of `TRAP.undefined`: "any `ir[7:0]` outside 0x20..0x25" (R127). -/
def vectorIsUndefined (v : BitVec 8) : Bool := !Config.routineVectors.contains v

/-- `i` is an instruction some word of the machine decodes to. -/
def wellFormed : Instr → Bool
  | .addReg _ _ _ => true
  | .addImm _ _ _ => true
  | .andReg _ _ _ => true
  | .andImm _ _ _ => true
  | .not _ _ => true
  | .br _ _ => true
  | .jmp _ => true
  | .jsr _ => true
  | .jsrr _ => true
  | .ld _ _ => true
  | .ldi _ _ => true
  | .ldr _ _ _ => true
  | .lea _ _ => true
  | .st _ _ => true
  | .sti _ _ => true
  | .str _ _ _ => true
  | .trapGetc => true
  | .trapOut => true
  | .trapPuts => true
  | .trapIn => true
  | .trapPutsp => true
  | .trapHalt => true
  | .trapUndefined v => vectorIsUndefined v
  | .rti _ => true
  | .res _ => true

end Sys2Proof.Instr
end

