-- ==== Sys2Proof/Decode.lean ====
section
/-! DEFINITION. The decoder (`30_encoding.md` R51 to R60), total on the 65,536 words; the encoder, from the same format tables (R53); and the decode table of R60 as rows of mask and match. -/

namespace Sys2Proof

/-- The `len` bits of `w` from bit `lo` up: `w[lo+len-1 : lo]` of `00_scope.md` R6. -/
def field (w : Word) (lo len : Nat) : BitVec len := w.extractLsb' lo len

/-- The 3-bit register field of `w` whose low bit is `lo` (R54): value `i` names `Ri`. -/
def regField (w : Word) (lo : Nat) : Reg := (field w lo 3).toFin

/-- `ir[15:12]` (R51). -/
def opField (w : Word) : BitVec 4 := field w 12 4

/-- The trap routine a vector selects (`44_trap.md` R120). -/
def decodeTrap (v : BitVec 8) : Instr :=
  if v = Config.vecGetc then .trapGetc
  else if v = Config.vecOut then .trapOut
  else if v = Config.vecPuts then .trapPuts
  else if v = Config.vecIn then .trapIn
  else if v = Config.vecPutsp then .trapPutsp
  else if v = Config.vecHalt then .trapHalt
  else .trapUndefined v

/-- The decode function of R60: by `OPC[ir[15:12]]`, then by the one discriminating field the opcode has. It examines no bit that R57 leaves unassigned (log 3). -/
def decode (w : Word) : Instr :=
  match Config.opc (opField w) with
  | .add =>
    if w.getLsbD 5 then .addImm (regField w 9) (regField w 6) (field w 0 5)
    else .addReg (regField w 9) (regField w 6) (regField w 0)
  | .and =>
    if w.getLsbD 5 then .andImm (regField w 9) (regField w 6) (field w 0 5)
    else .andReg (regField w 9) (regField w 6) (regField w 0)
  | .not => .not (regField w 9) (regField w 6)
  | .br => .br (field w 9 3) (field w 0 9)
  | .jmp => .jmp (regField w 6)
  | .jsr => if w.getLsbD 11 then .jsr (field w 0 11) else .jsrr (regField w 6)
  | .ld => .ld (regField w 9) (field w 0 9)
  | .ldi => .ldi (regField w 9) (field w 0 9)
  | .ldr => .ldr (regField w 9) (regField w 6) (field w 0 6)
  | .lea => .lea (regField w 9) (field w 0 9)
  | .st => .st (regField w 9) (field w 0 9)
  | .sti => .sti (regField w 9) (field w 0 9)
  | .str => .str (regField w 9) (regField w 6) (field w 0 6)
  | .trap => decodeTrap (field w 0 8)
  | .rti => .rti (field w 0 12)
  | .res => .res (field w 0 12)

/-! ## The encoder -/

/-- The field value `v` put with its low bit at bit `lo` of a word, all other bits 0. -/
def place {len : Nat} (v : BitVec len) (lo : Nat) : Word := v.setWidth 16 <<< lo

/-- A register index in the 3-bit field whose low bit is `lo` (R54). -/
def placeReg (r : Reg) (lo : Nat) : Word := place (BitVec.ofFin r : BitVec 3) lo

/-- The opcode number in bits 15:12 (R51, R52). -/
def placeOp (o : Opcode) : Word := place (Config.opcodeNumber o) 12

/-- The word of an instruction, field by field at the positions of the format tables of R53. The bits of no field are emitted as an assembler should (R57): 0, and 1 in NOT (PRESUMED: K4, log 22). -/
def encode : Instr → Word
  | .addReg dst src1 src2 => placeOp .add ||| placeReg dst 9 ||| placeReg src1 6 ||| place 0#1 5 ||| placeReg src2 0
  | .addImm dst src1 imm5 => placeOp .add ||| placeReg dst 9 ||| placeReg src1 6 ||| place 1#1 5 ||| place imm5 0
  | .andReg dst src1 src2 => placeOp .and ||| placeReg dst 9 ||| placeReg src1 6 ||| place 0#1 5 ||| placeReg src2 0
  | .andImm dst src1 imm5 => placeOp .and ||| placeReg dst 9 ||| placeReg src1 6 ||| place 1#1 5 ||| place imm5 0
  | .not dst src => placeOp .not ||| placeReg dst 9 ||| placeReg src 6 ||| place 0x3F#6 0
  | .br condMask pcOffset9 => placeOp .br ||| place condMask 9 ||| place pcOffset9 0
  | .jmp base => placeOp .jmp ||| placeReg base 6
  | .jsr pcOffset11 => placeOp .jsr ||| place 1#1 11 ||| place pcOffset11 0
  | .jsrr base => placeOp .jsr ||| place 0#1 11 ||| placeReg base 6
  | .ld dst pcOffset9 => placeOp .ld ||| placeReg dst 9 ||| place pcOffset9 0
  | .ldi dst pcOffset9 => placeOp .ldi ||| placeReg dst 9 ||| place pcOffset9 0
  | .ldr dst base offset6 => placeOp .ldr ||| placeReg dst 9 ||| placeReg base 6 ||| place offset6 0
  | .lea dst pcOffset9 => placeOp .lea ||| placeReg dst 9 ||| place pcOffset9 0
  | .st src pcOffset9 => placeOp .st ||| placeReg src 9 ||| place pcOffset9 0
  | .sti src pcOffset9 => placeOp .sti ||| placeReg src 9 ||| place pcOffset9 0
  | .str src base offset6 => placeOp .str ||| placeReg src 9 ||| placeReg base 6 ||| place offset6 0
  | .trapGetc => placeOp .trap ||| place Config.vecGetc 0
  | .trapOut => placeOp .trap ||| place Config.vecOut 0
  | .trapPuts => placeOp .trap ||| place Config.vecPuts 0
  | .trapIn => placeOp .trap ||| place Config.vecIn 0
  | .trapPutsp => placeOp .trap ||| place Config.vecPutsp 0
  | .trapHalt => placeOp .trap ||| place Config.vecHalt 0
  | .trapUndefined vector => placeOp .trap ||| place vector 0
  | .rti low => placeOp .rti ||| place low 0
  | .res low => placeOp .res ||| place low 0

/-! ## The bits of R57 -/

/-- The bits of an instruction's word that the instruction depends on: all but those R57 lists. The words of RTI and RES are kept whole, since their fault records them (log 21). -/
def assignedBits : Instr → Word
  | .addReg _ _ _ => 0xFFE7
  | .addImm _ _ _ => 0xFFFF
  | .andReg _ _ _ => 0xFFE7
  | .andImm _ _ _ => 0xFFFF
  | .not _ _ => 0xFFC0
  | .br _ _ => 0xFFFF
  | .jmp _ => 0xF1C0
  | .jsr _ => 0xFFFF
  | .jsrr _ => 0xF9C0
  | .ld _ _ => 0xFFFF
  | .ldi _ _ => 0xFFFF
  | .ldr _ _ _ => 0xFFFF
  | .lea _ _ => 0xFFFF
  | .st _ _ => 0xFFFF
  | .sti _ _ => 0xFFFF
  | .str _ _ _ => 0xFFFF
  | .trapGetc => 0xF0FF
  | .trapOut => 0xF0FF
  | .trapPuts => 0xF0FF
  | .trapIn => 0xF0FF
  | .trapPutsp => 0xF0FF
  | .trapHalt => 0xF0FF
  | .trapUndefined _ => 0xF0FF
  | .rti _ => 0xFFFF
  | .res _ => 0xFFFF

/-! ## The decode table of R60 -/

/-- A row of the decode table of R60; `priority` is that of `opcode_table.json` (1 for the six routine rows, over the catch-all `TRAP.undefined`). -/
structure OpcodeRow where
  mnemonic : String
  mask : Word
  value : Word
  priority : Nat
deriving DecidableEq, Repr

/-- `w` matches the row. -/
def OpcodeRow.accepts (r : OpcodeRow) (w : Word) : Bool := w &&& r.mask == r.value

/-- The rows of the two-operand and one-operand arithmetic instructions. -/
def aluRows : List OpcodeRow :=
  [⟨"ADD.reg", 0xF020, 0x1000, 0⟩, ⟨"ADD.imm", 0xF020, 0x1020, 0⟩, ⟨"AND.reg", 0xF020, 0x5000, 0⟩,
   ⟨"AND.imm", 0xF020, 0x5020, 0⟩, ⟨"NOT", 0xF000, 0x9000, 0⟩]

/-- The rows of the control transfers. -/
def controlRows : List OpcodeRow :=
  [⟨"BR", 0xF000, 0x0000, 0⟩, ⟨"JMP", 0xF000, 0xC000, 0⟩, ⟨"JSR", 0xF800, 0x4800, 0⟩, ⟨"JSRR", 0xF800, 0x4000, 0⟩]

/-- The rows of the loads, stores and LEA. -/
def memoryRows : List OpcodeRow :=
  [⟨"LD", 0xF000, 0x2000, 0⟩, ⟨"LDI", 0xF000, 0xA000, 0⟩, ⟨"LDR", 0xF000, 0x6000, 0⟩, ⟨"LEA", 0xF000, 0xE000, 0⟩,
   ⟨"ST", 0xF000, 0x3000, 0⟩, ⟨"STI", 0xF000, 0xB000, 0⟩, ⟨"STR", 0xF000, 0x7000, 0⟩]

/-- The rows of TRAP, RTI and RES. -/
def trapRows : List OpcodeRow :=
  [⟨"TRAP.GETC", 0xF0FF, 0xF020, 1⟩, ⟨"TRAP.OUT", 0xF0FF, 0xF021, 1⟩, ⟨"TRAP.PUTS", 0xF0FF, 0xF022, 1⟩,
   ⟨"TRAP.IN", 0xF0FF, 0xF023, 1⟩, ⟨"TRAP.PUTSP", 0xF0FF, 0xF024, 1⟩, ⟨"TRAP.HALT", 0xF0FF, 0xF025, 1⟩,
   ⟨"TRAP.undefined", 0xF000, 0xF000, 0⟩, ⟨"RTI", 0xF000, 0x8000, 0⟩, ⟨"RES", 0xF000, 0xD000, 0⟩]

/-- The decode table of R60, its 25 rows. -/
def opcodeTable : List OpcodeRow := aluRows ++ controlRows ++ memoryRows ++ trapRows

/-! ## The host's question about a row -/

/-- Why a piece of program text is no instruction. Every 16-bit word is one (R60), so only a piece of another length is refused. -/
inductive DecodeError where
  /-- The piece is empty or longer than the one word every instruction has (R50). Safe: no instruction is lost by it. -/
  | notOneWord
deriving DecidableEq, Repr

/-- The instruction whose bits are `w`, of which `nbits` are given and the others are 0; refused by name when that is not one word (R50). Log 30. -/
def decodeSized (nbits w : Nat) : Except DecodeError Instr :=
  if 0 < nbits ∧ nbits ≤ Config.wordBits then .ok (decode (BitVec.ofNat 16 (w % 2 ^ nbits)))
  else .error .notOneWord

/-- The instruction the decoder reads from a row's bits, for the host. -/
def decodeTableWord (nbits w : Nat) : Option Instr :=
  match decodeSized nbits w with
  | .ok i => some i
  | .error _ => none

end Sys2Proof
end

