-- ==== Sys2Proof/Machine/State.lean ====
section
/-! DEFINITION. The whole state of the machine as plain data (`10_state.md`), the named ways a step can stop, and the state after reset (R22). -/

namespace Sys2Proof.Machine

/-- Memory as a list of (address, cell) pairs, a cell being the 16-bit unit of addressing (`20_memory.md` R31; log 20). An address that is not listed reads as `Config.unlistedCell`. -/
abbrev Memory := List (Nat × Word)

/-- The canonical form: addresses strictly rising and inside the 65,536 cells, and no listed cell equal to what an unlisted address reads as. -/
abbrev Memory.wf (m : Memory) : Prop :=
  m.Pairwise (fun c d => c.1 < d.1) ∧ ∀ c ∈ m, c.1 < Config.memWords ∧ c.2 ≠ Config.unlistedCell

/-- The three causes of the fatal decode error (`60_exceptions.md` R151). -/
inductive FatalCause where
  | illegalOpcodeRTI
  | illegalOpcodeRES
  | undefinedTrapVector
deriving DecidableEq, Repr

/-- `FatalDecodeError(cause, info)` (`60_exceptions.md` R151). -/
structure FatalRecord where
  cause : FatalCause
  info : Word
deriving DecidableEq, Repr

/-- One call of a console primitive, with what it passed or returned (`20_memory.md` R45). -/
inductive ConsoleCall where
  | keyAvailable (answer : Bool)
  | readChar (code : Word)
  | readCharEcho (code : Word)
  | writeChar (code : Word)
deriving DecidableEq, Repr

/-- The console oracle (`10_state.md` R21) and the record of the calls made (`40_execution_cycle.md` R75). The model's own data, not state of the core. Log 17, log 25. -/
structure Console where
  /-- The availability schedule: the next answers of `KeyAvailable`. -/
  schedule : List Bool
  /-- The input stream: the next codes that `ReadChar` and `ReadCharEcho` return. -/
  codes : List Word
  /-- No character ever arrives after `codes` (`93_implementation_defined.md` U6); log 18. -/
  silent : Bool
  /-- How many free answers have been given. -/
  drawn : Nat
  /-- The calls made so far, oldest first. -/
  calls : List ConsoleCall
deriving DecidableEq, Repr

/-- Everything the spec gives the machine (`10_state.md`), and the console oracle beside it. -/
structure State where
  /-- `R0`..`R7` (R11). -/
  regs : Vector Word 8
  /-- `PC` (R12). -/
  pc : Word
  /-- `COND` (R13). -/
  cond : Word
  /-- The 65,536 cells (R17), those of KBSR and KBDR among them. -/
  mem : Memory
  /-- The running flag (R18). -/
  run : Bool
  /-- The fault record (R18). -/
  fault : Option FatalRecord
  /-- The console oracle (R21); the model's own field. -/
  console : Console
deriving DecidableEq, Repr

/-- The status of the machine, a function of `run` and `fault` (R18). -/
inductive Status where
  | running
  | halted
  | fatal
deriving DecidableEq, Repr

/-- Why a step answers no next state. -/
inductive Fault where
  /-- `step` in status HALTED: no further cycle begins (`40_execution_cycle.md` R74). Safe: nothing is claimed to happen. -/
  | halted
  /-- `step` in status FATAL, with the record that stands in the state: no further cycle begins (R74, `60_exceptions.md` R152). Safe. -/
  | fatalDecodeError (r : FatalRecord)
  /-- GETC and IN, when the console is silent and its stream is exhausted: the blocking read never returns and the cycle never completes (`93_implementation_defined.md` U6). A stuck state. Safe. Log 18. -/
  | consoleReadNeverReturns
  /-- PUTS and PUTSP, when no cell of memory ends the string: the walk never ends (`93_implementation_defined.md` U7). A stuck state. Safe. Log 19. -/
  | stringNeverEnds
deriving DecidableEq, Repr

/-- Why an instruction has no meaning in the model. -/
inductive Refusal where
  /-- An arm of `exec` whose instruction has no meaning yet; no arm answers it now. Safe. -/
  | notModelled (mnemonic : String)
deriving DecidableEq, Repr

/-- What an instruction or a step answers. -/
abbrev Result := Host.Outcome State Fault Refusal

/-- The console that nothing has called yet; what the host supplies is free (`10_state.md` R22). DESIGN CHOICE. Log 17. -/
def Console.initial : Console :=
  { schedule := [], codes := [], silent := false, drawn := 0, calls := [] }

/-- The machine right after reset (`10_state.md` R22). -/
def State.reset : State :=
  { regs := Vector.replicate 8 0
    pc := Config.pcReset
    cond := Config.flZro
    mem := []
    run := true
    fault := none
    console := Console.initial }

end Sys2Proof.Machine
end

