-- ==== Sys2Proof/Machine/Ops.lean ====
section
/-! DEFINITION. The named operations over registers, memory, the console and the fault record, through which every meaning goes. -/

namespace Sys2Proof.Machine

/-! ## Memory -/

/-- The cell at `a` (`20_memory.md` R40, a raw read). -/
def Memory.read : Memory → Nat → Word
  | [], _ => Config.unlistedCell
  | (k, v) :: rest, a => if k = a then v else Memory.read rest a

/-- `m` with the entry `(a, v)` in its place; `m` lists no entry at `a`. -/
def Memory.insert : Memory → Nat → Word → Memory
  | [], a, v => [(a, v)]
  | (k, w) :: rest, a, v => if a < k then (a, v) :: (k, w) :: rest else (k, w) :: Memory.insert rest a v

/-- `m` without an entry at `a`. -/
def Memory.erase (m : Memory) (a : Nat) : Memory := m.filter (fun c => c.1 != a)

/-- The memory in which the cell at `a` is `v` and every other cell is as in `m`; it keeps the canonical form. -/
def Memory.write (m : Memory) (a : Nat) (v : Word) : Memory :=
  if v = Config.unlistedCell then m.erase a else (m.erase a).insert a v

namespace State

/-! ## Registers and cells -/

/-- `x[i]` (`10_state.md` R11). -/
def reg (s : State) (i : Reg) : Word := s.regs[i]

/-- `x[i] <- v` (R11). It does not touch COND. -/
def setReg (s : State) (i : Reg) (v : Word) : State := { s with regs := s.regs.set i v }

/-- `pc <- t` (R12). -/
def setPc (s : State) (t : Word) : State := { s with pc := t }

/-- `cond <- f` (R13). -/
def setCond (s : State) (f : Word) : State := { s with cond := f }

/-- `M[a]`, raw (`20_memory.md` R40). -/
def cell (s : State) (a : Word) : Word := s.mem.read a.toNat

/-- `M[a] <- v`, raw (`20_memory.md` R40). -/
def setCell (s : State) (a v : Word) : State := { s with mem := s.mem.write a.toNat v }

/-- `run <- 0` (`44_trap.md` R126). -/
def stop (s : State) : State := { s with run := false }

/-- The state with another console. -/
def setConsole (s : State) (c : Console) : State := { s with console := c }

/-! ## The fatal decode error -/

/-- `raise FatalDecodeError(cause, info)` (`60_exceptions.md` R152): it writes the fault record and nothing else, and control goes nowhere. There is no return from it (R157). -/
def raiseFatal (s : State) (cause : FatalCause) (info : Word) : State := { s with fault := some ⟨cause, info⟩ }

/-- The status of the machine (`10_state.md` R18). The pair `run` = 0 with `fault` set "cannot arise"; here it counts as FATAL (log 28). -/
def status (s : State) : Status :=
  match s.fault with
  | some _ => .fatal
  | none => if s.run then .running else .halted

/-- The stop a step answers in a terminal status (`40_execution_cycle.md` R70, R74), and none in RUNNING. Log 13. -/
def terminalFault (s : State) : Option Fault :=
  match s.fault with
  | some r => some (.fatalDecodeError r)
  | none => if s.run then none else some .halted

end State

/-- The code of a cause (`60_exceptions.md` R151; DESIGN CHOICE of the spec, D13, log 13). -/
def FatalCause.code : FatalCause → Word
  | .illegalOpcodeRTI => 1
  | .illegalOpcodeRES => 2
  | .undefinedTrapVector => 3

/-! ## The console primitives (`20_memory.md` R45) -/

namespace Console

/-- A blocking read returns: a character is pending or will arrive. -/
def answers (c : Console) : Bool := !c.silent || !c.codes.isEmpty

/-- What `KeyAvailable` returns: the schedule's next answer, a free value once the schedule is exhausted; false when no character can be pending. Log 17. -/
def keyAnswer (c : Console) : Bool :=
  c.answers && (match c.schedule with
    | b :: _ => b
    | [] => Config.freeKeyAnswer c.drawn)

/-- The console after `KeyAvailable` has been called; it consumes no character. -/
def askKey (c : Console) : Console :=
  { c with
    schedule := c.schedule.tail
    drawn := if c.schedule.isEmpty then c.drawn + 1 else c.drawn
    calls := c.calls ++ [.keyAvailable c.keyAnswer] }

/-- The code of the character a read returns: the input stream's next, a free value once the stream is exhausted. Log 17. -/
def nextCode (c : Console) : Word :=
  match c.codes with
  | k :: _ => k
  | [] => Config.freeCode c.drawn

/-- The console after a read has taken that character; `call` names which of the two reads it was. -/
def takeCode (c : Console) (call : Word → ConsoleCall) : Console :=
  { c with
    codes := c.codes.tail
    drawn := if c.codes.isEmpty then c.drawn + 1 else c.drawn
    calls := c.calls ++ [call c.nextCode] }

/-- The console after `WriteChar` of each code in turn. -/
def write (c : Console) (codes : List Word) : Console :=
  { c with calls := c.calls ++ codes.map .writeChar }

/-- The codes written to the console so far, in order. -/
def output (c : Console) : List Word :=
  c.calls.filterMap (fun k => match k with
    | .writeChar code => some code
    | .keyAvailable _ => none
    | .readChar _ => none
    | .readCharEcho _ => none)

end Console

namespace State

/-- `ReadChar()` (R45), unechoed: the code and the state after it; none when it never returns (log 18). -/
def readChar (s : State) : Option (Word × State) :=
  if s.console.answers then some (s.console.nextCode, s.setConsole (s.console.takeCode .readChar)) else none

/-- `ReadCharEcho()` (R45): the console itself echoes (D24, log 24); none when it never returns (log 18). -/
def readCharEcho (s : State) : Option (Word × State) :=
  if s.console.answers then some (s.console.nextCode, s.setConsole (s.console.takeCode .readCharEcho)) else none

/-- `WriteChar(c)` for each `c` of the list, in order (R45); the whole 16-bit code is handed over (D10, log 10). -/
def writeChars (s : State) (codes : List Word) : State := s.setConsole (s.console.write codes)

/-! ## Memory access (`20_memory.md` R36 to R39) -/

/-- The poll that a read of KBSR makes (R38): D7 (log 7), D8 (log 8), order D23 (log 27). A key that is available can be read at once, so `ReadChar` does not block here (R45). -/
def pollKeyboard (s : State) : State :=
  let asked := s.setConsole s.console.askKey
  if s.console.keyAnswer then
    let ready := asked.setCell Config.kbsr Config.kbsrReady
    (ready.setConsole (ready.console.takeCode .readChar)).setCell Config.kbdr ready.console.nextCode
  else
    asked.setCell Config.kbsr 0x0000

/-- `MemRead(a, 16)`, the normal memory-read path (R37, R38, R39): the word and the state after the read. -/
def memRead (s : State) (a : Word) : Word × State :=
  if a = Config.kbsr then (s.pollKeyboard.cell Config.kbsr, s.pollKeyboard) else (s.cell a, s)

/-- `MemWrite(a, 16, v)` (R36): a plain store at every address (D9, log 9). -/
def memWrite (s : State) (a v : Word) : State := s.setCell a v

/-- The read of one string cell by PUTS and PUTSP (R40): raw, as `Config.stringViaMemRead` says. -/
def stringCell (s : State) (a : Word) : Word × State :=
  if Config.stringViaMemRead then s.memRead a else (s.cell a, s)

/-! ## The fetch and the link -/

/-- The fetch of a cycle (`40_execution_cycle.md` R71): the word at `M[pc]`, read raw as `Config.fetchViaMemRead` says, and the state with `pc` incremented modulo 2^16. -/
def fetch (s : State) : Word × State :=
  let got := if Config.fetchViaMemRead then s.memRead s.pc else (s.cell s.pc, s)
  (got.1, got.2.setPc (got.2.pc + 1))

/-- `x[7] <- pc`, the link of JSR, JSRR and TRAP (`42_control.md` R90): no flag is set (`10_state.md` R15). -/
def link (s : State) : State := s.setReg 7 s.pc

/-! ## Before the first cycle: the loader (`70_reset_and_hazards.md` R172) -/

/-- One image: its data words stored raw at consecutive addresses from `origin` (log 16). R172 and `91_not_in_source.md` N14 leave open what happens to an image that would run past 0xFFFF; that the address wraps to 0x0000 and the storing goes on is the model's own choice (DESIGN CHOICE, log 31). -/
def loadImage (s : State) (origin : Word) : List Word → State
  | [] => s
  | w :: rest => loadImage (s.setCell origin w) (origin + 1) rest

/-- Several images in sequence, a later one over an earlier one; each is its origin word and its data words. -/
def loadImages (s : State) : List (Word × List Word) → State
  | [] => s
  | (origin, data) :: rest => loadImages (s.loadImage origin data) rest

/-- The entry address `ENTRY_PC` that the loader may install (R172, D16). -/
def installEntry (s : State) (entry : Word) : State := s.setPc entry

end State

end Sys2Proof.Machine
end

