-- ==== Sys2Proof/Machine/Operands.lean ====
section
/-! DEFINITION. Immediates and addressing modes: `signExtend` (`30_encoding.md` R55), the extended fields of R56, and the effective addresses of `43_load_store.md` R107. `pc` is the incremented PC throughout (`40_execution_cycle.md` R72). -/

namespace Sys2Proof.Machine

/-- `signExtend(v, n)` on any 16-bit `v` (R55): bits `n` to 15 are set when bit `n-1` is, and otherwise `v` is returned "unchanged". -/
def signExtend (v : Word) (n : Nat) : Word := if v.getLsbD (n - 1) then v ||| (0xFFFF#16 <<< n) else v

/-- `zext_16(v)`: the word whose low bits are `v` and whose other bits are 0 (`00_scope.md` R6). -/
def zext16 {n : Nat} (v : BitVec n) : Word := v.setWidth 16

/-- `sext_n(f)` of a field `f` of `n` bits (R55). -/
def sext {n : Nat} (f : BitVec n) : Word := signExtend (zext16 f) n

namespace State

/-- The PC-relative address of LD, ST, LEA, BR and, with 11 bits, of JSR (R107 (a), `42_control.md` R91, R93): modulo 2^16 (`20_memory.md` R34). -/
def pcRelative {n : Nat} (s : State) (offset : BitVec n) : Word := s.pc + sext offset

/-- The base plus offset address of LDR and STR (R107 (c)). -/
def baseOffset (s : State) (base : Reg) (offset6 : BitVec 6) : Word := s.reg base + sext offset6

/-- The indirect address of LDI and STI (R107 (b)): the pointer read through `MemRead`, and the state after that read. -/
def indirect (s : State) (pcOffset9 : BitVec 9) : Word × State := s.memRead (s.pcRelative pcOffset9)

end State

end Sys2Proof.Machine
end

