-- ==== Sys2Proof/Machine/Flags.lean ====
section
/-! DEFINITION. The condition-flag logic (`10_state.md` R13 to R16): `SetCC` and BR's test. -/

namespace Sys2Proof.Machine

/-- The flag of a value (R14): NEG if bit 15 is set, else ZRO if it is zero, else POS. -/
def condOf (v : Word) : Word :=
  if v.getLsbD 15 then Config.flNeg else if v = 0 then Config.flZro else Config.flPos

namespace State

/-- `SetCC(i)` (R14): COND from the value that `Ri` holds now. -/
def setCC (s : State) (i : Reg) : State := s.setCond (condOf (s.reg i))

/-- The write of a destination register and the flag update that goes with it (R15): `x[i] <- v`, then `SetCC(i)`. -/
def writeDst (s : State) (i : Reg) (v : Word) : State := (s.setReg i v).setCC i

/-- BR's test `(condMask & COND) != 0` (`42_control.md` R91). -/
def condSelected (s : State) (condMask : BitVec 3) : Bool := zext16 condMask &&& s.cond != 0

end State

end Sys2Proof.Machine
end

