-- ==== Sys2Proof/Machine/Alu.lean ====
section
/-! DEFINITION. ADD, AND and NOT (`41_alu.md`). The sources are read before `dst` is written; nothing carries or overflows (R85). -/

namespace Sys2Proof.Machine

/-- ADD, register form (R80). -/
def execAddReg (dst src1 src2 : Reg) (s : State) : Result :=
  .next (s.writeDst dst (s.reg src1 + s.reg src2))

/-- ADD, immediate form (R81). -/
def execAddImm (dst src1 : Reg) (imm5 : BitVec 5) (s : State) : Result :=
  .next (s.writeDst dst (s.reg src1 + sext imm5))

/-- AND, register form (R82). -/
def execAndReg (dst src1 src2 : Reg) (s : State) : Result :=
  .next (s.writeDst dst (s.reg src1 &&& s.reg src2))

/-- AND, immediate form (R83). -/
def execAndImm (dst src1 : Reg) (imm5 : BitVec 5) (s : State) : Result :=
  .next (s.writeDst dst (s.reg src1 &&& sext imm5))

/-- NOT (R84). -/
def execNot (dst src : Reg) (s : State) : Result :=
  .next (s.writeDst dst (~~~ s.reg src))

end Sys2Proof.Machine
end

