-- ==== Sys2Proof/Machine/Control.lean ====
section
/-! DEFINITION. BR, JMP, JSR and JSRR (`42_control.md`). `pc` is the incremented PC; there is no delay slot (R90). -/

namespace Sys2Proof.Machine

/-- BR (R91). -/
def execBr (condMask : BitVec 3) (pcOffset9 : BitVec 9) (s : State) : Result :=
  .next (if s.condSelected condMask then s.setPc (s.pcRelative pcOffset9) else s)

/-- JMP, and RET with base `R7` (R92). -/
def execJmp (base : Reg) (s : State) : Result :=
  .next (s.setPc (s.reg base))

/-- JSR, PC-relative (R93): the link, then the jump. -/
def execJsr (pcOffset11 : BitVec 11) (s : State) : Result :=
  .next (s.link.setPc (s.link.pcRelative pcOffset11))

/-- JSRR (R94): the link, then the jump to the base register as it stands AFTER the link write (D4, log 4). -/
def execJsrr (base : Reg) (s : State) : Result :=
  .next (s.link.setPc (s.link.reg base))

end Sys2Proof.Machine
end

