-- ==== Sys2Proof/Machine/Illegal.lean ====
section
/-! DEFINITION. The two illegal opcodes RTI and RES (`45_rti_res.md`): the fatal decode error always, with the instruction word as its info (`60_exceptions.md` R151). -/

namespace Sys2Proof.Machine

/-- RTI (R140). -/
def execRti (low : BitVec 12) (s : State) : Result :=
  .next (s.raiseFatal .illegalOpcodeRTI (encode (.rti low)))

/-- RES (R141). -/
def execRes (low : BitVec 12) (s : State) : Result :=
  .next (s.raiseFatal .illegalOpcodeRES (encode (.res low)))

end Sys2Proof.Machine
end

