-- ==== Sys2Proof/Machine/LoadStore.lean ====
section
/-! DEFINITION. LD, LDI, LDR, LEA, ST, STI and STR (`43_load_store.md`). Every `memRead` polls the keyboard when its address is KBSR, whichever instruction makes it (`20_memory.md` R41). -/

namespace Sys2Proof.Machine

/-- `x[dst] <- MemRead(a, 16)` and `SetCC(dst)`, what the three loads do at their address. -/
def State.loadFrom (s : State) (dst : Reg) (a : Word) : State :=
  (s.memRead a).2.writeDst dst (s.memRead a).1

/-- LD (R100). -/
def execLd (dst : Reg) (pcOffset9 : BitVec 9) (s : State) : Result :=
  .next (s.loadFrom dst (s.pcRelative pcOffset9))

/-- LDI (R101): the pointer first, then the datum, both through `memRead`. -/
def execLdi (dst : Reg) (pcOffset9 : BitVec 9) (s : State) : Result :=
  .next ((s.indirect pcOffset9).2.loadFrom dst (s.indirect pcOffset9).1)

/-- LDR (R102): the address comes from the old `x[base]`. -/
def execLdr (dst base : Reg) (offset6 : BitVec 6) (s : State) : Result :=
  .next (s.loadFrom dst (s.baseOffset base offset6))

/-- LEA (R103): the address itself, no memory access; it sets the flags. -/
def execLea (dst : Reg) (pcOffset9 : BitVec 9) (s : State) : Result :=
  .next (s.writeDst dst (s.pcRelative pcOffset9))

/-- ST (R104). -/
def execSt (src : Reg) (pcOffset9 : BitVec 9) (s : State) : Result :=
  .next (s.memWrite (s.pcRelative pcOffset9) (s.reg src))

/-- STI (R105): the read of the pointer precedes the write. -/
def execSti (src : Reg) (pcOffset9 : BitVec 9) (s : State) : Result :=
  .next ((s.indirect pcOffset9).2.memWrite (s.indirect pcOffset9).1 ((s.indirect pcOffset9).2.reg src))

/-- STR (R106). -/
def execStr (src base : Reg) (offset6 : BitVec 6) (s : State) : Result :=
  .next (s.memWrite (s.baseOffset base offset6) (s.reg src))

end Sys2Proof.Machine
end

