-- ==== Sys2Proof/Machine/Trap.lean ====
section
/-! DEFINITION. TRAP and its six routines (`44_trap.md`). Every TRAP links `R7` first (R120); the routine then runs inside the same cycle, and `pc` is not written. A routine touches only what R128 lists (D19, log 23). -/

namespace Sys2Proof.Machine

/-- `x[0] <- code; SetCC(0)` after a blocking read, or the stuck state of a read that never returns (R121, R124; log 18). -/
def storeCode (got : Option (Word × State)) : Result :=
  match got with
  | some (code, s) => .next (s.writeDst 0 code)
  | none => .fault .consoleReadNeverReturns

/-- IN after the link (R124), for a prompt text: the prompt, then the echoed read. -/
def promptedRead (prompt : List Word) (s : State) : Result := storeCode (s.writeChars prompt).readCharEcho

/-- HALT after the link (R126), for a message text: the message, then `run <- 0`. -/
def haltWith (message : List Word) (s : State) : State := (s.writeChars message).stop

/-- The characters of one PUTS cell: the whole cell is one code; none when the cell ends the string (R123). -/
def putsChars (w : Word) : Option (List Word) := if w = 0x0000 then none else some [w]

/-- The characters of one PUTSP cell: the low byte, then the high byte if it is not zero; none when the low byte is zero (R125). -/
def putspChars (w : Word) : Option (List Word) :=
  let lo := w.extractLsb' 0 8
  let hi := w.extractLsb' 8 8
  if lo = 0 then none
  else some (if hi = 0 then [zext16 lo] else [zext16 lo, zext16 hi])

/-- The loop of PUTS and PUTSP from the cell at `a`: the state after it, or none when `fuel` cells do not end the string. -/
def walkString (chars : Word → Option (List Word)) : Nat → Word → State → Option State
  | 0, _, _ => none
  | fuel + 1, a, s =>
    match chars (s.stringCell a).1 with
    | none => some (s.stringCell a).2
    | some codes => walkString chars fuel (a + 1) ((s.stringCell a).2.writeChars codes)

/-- PUTS and PUTSP after the link: the string at `x[0]`. The address wraps, so `Config.memWords` cells are all there are, and a string that none of them ends never ends (`93_implementation_defined.md` U7; log 19). -/
def writeString (chars : Word → Option (List Word)) (s : State) : Result :=
  match walkString chars Config.memWords (s.reg 0) s with
  | some s' => .next s'
  | none => .fault .stringNeverEnds

/-- TRAP GETC (R120, R121). -/
def execTrapGetc (s : State) : Result := storeCode s.link.readChar

/-- TRAP OUT (R120, R122). -/
def execTrapOut (s : State) : Result := .next (s.link.writeChars [s.link.reg 0])

/-- TRAP PUTS (R120, R123). -/
def execTrapPuts (s : State) : Result := writeString putsChars s.link

/-- TRAP IN (R120, R124). -/
def execTrapIn (s : State) : Result := promptedRead Config.inPrompt s.link

/-- TRAP PUTSP (R120, R125). -/
def execTrapPutsp (s : State) : Result := writeString putspChars s.link

/-- TRAP HALT (R120, R126). -/
def execTrapHalt (s : State) : Result := .next (haltWith Config.haltMessage s.link)

/-- TRAP with an undefined vector (R120, R127): the link has happened, then the fatal decode error with the vector as its info. -/
def execTrapUndefined (vector : BitVec 8) (s : State) : Result :=
  .next (s.link.raiseFatal .undefinedTrapVector (zext16 vector))

end Sys2Proof.Machine
end

