-- ==== Sys2Proof/Machine/Dispatch.lean ====
section
/-! DEFINITION. The meaning of each instruction, one arm per constructor (`40_execution_cycle.md` R71, R73). -/

namespace Sys2Proof.Machine

def exec (i : Instr) (s : State) : Host.Outcome State Fault Refusal :=
  match i with
  -- 41_alu.md
  | .addReg dst src1 src2 => Sys2Proof.Machine.execAddReg dst src1 src2 s
  | .addImm dst src1 imm5 => Sys2Proof.Machine.execAddImm dst src1 imm5 s
  | .andReg dst src1 src2 => Sys2Proof.Machine.execAndReg dst src1 src2 s
  | .andImm dst src1 imm5 => Sys2Proof.Machine.execAndImm dst src1 imm5 s
  | .not dst src => Sys2Proof.Machine.execNot dst src s
  -- 42_control.md
  | .br condMask pcOffset9 => Sys2Proof.Machine.execBr condMask pcOffset9 s
  | .jmp base => Sys2Proof.Machine.execJmp base s
  | .jsr pcOffset11 => Sys2Proof.Machine.execJsr pcOffset11 s
  | .jsrr base => Sys2Proof.Machine.execJsrr base s
  -- 43_load_store.md
  | .ld dst pcOffset9 => Sys2Proof.Machine.execLd dst pcOffset9 s
  | .ldi dst pcOffset9 => Sys2Proof.Machine.execLdi dst pcOffset9 s
  | .ldr dst base offset6 => Sys2Proof.Machine.execLdr dst base offset6 s
  | .lea dst pcOffset9 => Sys2Proof.Machine.execLea dst pcOffset9 s
  | .st src pcOffset9 => Sys2Proof.Machine.execSt src pcOffset9 s
  | .sti src pcOffset9 => Sys2Proof.Machine.execSti src pcOffset9 s
  | .str src base offset6 => Sys2Proof.Machine.execStr src base offset6 s
  -- 44_trap.md
  | .trapGetc => Sys2Proof.Machine.execTrapGetc s
  | .trapOut => Sys2Proof.Machine.execTrapOut s
  | .trapPuts => Sys2Proof.Machine.execTrapPuts s
  | .trapIn => Sys2Proof.Machine.execTrapIn s
  | .trapPutsp => Sys2Proof.Machine.execTrapPutsp s
  | .trapHalt => Sys2Proof.Machine.execTrapHalt s
  | .trapUndefined vector => Sys2Proof.Machine.execTrapUndefined vector s
  -- 45_rti_res.md
  | .rti low => Sys2Proof.Machine.execRti low s
  | .res low => Sys2Proof.Machine.execRes low s

end Sys2Proof.Machine
end

