-- ==== Sys2Proof/Machine/Cycle.lean ====
section
/-! DEFINITION. One pass of the execution loop (`40_execution_cycle.md` R71), and the placing of a word where the next cycle fetches. -/

namespace Sys2Proof.Machine.State

/-- `Cycle()` of R71, whose precondition is status RUNNING: fetch, increment, decode, execute. -/
def cycle (s : State) : Result := exec (decode s.fetch.1) s.fetch.2

/-- `s` with the word whose low `nbits` bits are those of `w`, and whose other bits are 0, stored at `M[pc]` by a raw write, as the loader does (`70_reset_and_hazards.md` R172). Log 16. -/
def placeWord (s : State) (nbits w : Nat) : State := s.setCell s.pc (BitVec.ofNat 16 (w % 2 ^ nbits))

end Sys2Proof.Machine.State
end

