-- ==== Sys2Proof/Machine/Step.lean ====
section
/-! DEFINITION. One step of the machine: one whole instruction cycle in status RUNNING, a named stop in the terminal statuses (`40_execution_cycle.md` R70, R74). -/

namespace Sys2Proof.Machine

/-- One step. "A cycle is executed only in RUNNING" (R70); HALTED and FATAL "have no outgoing transition" (R74). -/
def step (s : State) : Host.Outcome State Fault Refusal :=
  match s.terminalFault with
  | some f => .fault f
  | none => s.cycle

/-- `s` with an instruction word stored where `step` fetches its next instruction, at `M[pc]`. Log 16. -/
def State.withFetchWord (s : State) (nbits w : Nat) : State := s.placeWord nbits w

end Sys2Proof.Machine
end

