-- ==== Sys2Proof/Safety.lean ====
section
/-! DEFINITION. What counts as a safe run, and the terms the statements use: the invariant of the machine, runs, and what each instruction may touch according to the spec's own tables (`10_state.md` R11, R15, `20_memory.md` R41). -/

namespace Sys2Proof.Machine

/-! ## The invariant and runs -/

/-- COND "always holds exactly one of three mutually exclusive flag bits" (`10_state.md` R13, R23). -/
def State.condLegal (s : State) : Prop := s.cond = Config.flPos ∨ s.cond = Config.flZro ∨ s.cond = Config.flNeg

/-- What holds at every cycle boundary: COND is legal (R23), memory is in its canonical form (log 20), and `run` = 0 never stands beside a set `fault` (R18). -/
structure State.Inv (s : State) : Prop where
  condLegal : s.condLegal
  memWf : s.mem.wf
  oneTerminal : s.fault ≠ none → s.run = true

/-- `Run s t`: some number of steps leads from `s` to `t`. -/
inductive Run : State → State → Prop where
  | refl (s : State) : Run s s
  | snoc {s t u : State} : Run s t → step t = .next u → Run s u

/-- A run from `s` that has ended cleanly in `t` (`40_execution_cycle.md` R75). -/
def EndsCleanly (s t : State) : Prop := Run s t ∧ t.run = false ∧ t.fault = none

/-- A run from `s` that has ended in a fatal decode error (R75). -/
def EndsInFault (s t : State) : Prop := Run s t ∧ t.fault ≠ none

/-- The next state changed by `f`; a fault and a refusal as they are. -/
def mapNext (f : State → State) : Result → Result
  | .next t => .next (f t)
  | .fault e => .fault e
  | .refused e => .refused e

/-! ## The flag of a value -/

/-- `c` is the flag of `v`, by the partition of the 65,536 values in `10_state.md` R14. -/
def FlagsOf (v c : Word) : Prop :=
  (0x8000 ≤ v.toNat → c = Config.flNeg) ∧ (v.toNat = 0 → c = Config.flZro) ∧
  (1 ≤ v.toNat ∧ v.toNat ≤ 0x7FFF → c = Config.flPos)

/-! ## What stays -/

/-- From `s` to `t` every general register but those listed is unchanged. -/
def KeepsRegs (s t : State) (but : List Reg) : Prop := ∀ r, r ∉ but → t.reg r = s.reg r

/-- From `s` to `t` every cell of memory but those listed reads as before. -/
def KeepsMem (s t : State) (but : List Word) : Prop := ∀ a, a ∉ but → t.cell a = s.cell a

/-- From `s` to `t` the running flag and the fault record are unchanged. -/
def KeepsStatus (s t : State) : Prop := t.run = s.run ∧ t.fault = s.fault

/-- The console's input side is unchanged: nothing was asked and no character was taken. -/
def KeepsInput (c d : Console) : Prop :=
  d.schedule = c.schedule ∧ d.codes = c.codes ∧ d.silent = c.silent ∧ d.drawn = c.drawn

/-! ## Fields and bytes as numbers -/

/-- `w[hi:lo]`, "the unsigned number formed by bits `hi` down to `lo`" (`00_scope.md` R6). -/
def bitsOf (w : Word) (hi lo : Nat) : Nat := w.toNat / 2 ^ lo % 2 ^ (hi + 1 - lo)

/-- The bits 7:0 of a cell as a character code, PUTSP's first (`20_memory.md` R32). -/
def lowByte (w : Word) : Word := BitVec.ofNat 16 (bitsOf w 7 0)

/-- The bits 15:8 of a cell as a character code, PUTSP's second (R32). -/
def highByte (w : Word) : Word := BitVec.ofNat 16 (bitsOf w 15 8)

/-! ## What each instruction may touch -/

/-- The register whose value sets COND, for the instructions of R15's list; none for the others. -/
def flagReg : Instr → Option Reg
  | .addReg dst _ _ => some dst
  | .addImm dst _ _ => some dst
  | .andReg dst _ _ => some dst
  | .andImm dst _ _ => some dst
  | .not dst _ => some dst
  | .br _ _ => none
  | .jmp _ => none
  | .jsr _ => none
  | .jsrr _ => none
  | .ld dst _ => some dst
  | .ldi dst _ => some dst
  | .ldr dst _ _ => some dst
  | .lea dst _ => some dst
  | .st _ _ => none
  | .sti _ _ => none
  | .str _ _ _ => none
  | .trapGetc => some 0
  | .trapOut => none
  | .trapPuts => none
  | .trapIn => some 0
  | .trapPutsp => none
  | .trapHalt => none
  | .trapUndefined _ => none
  | .rti _ => none
  | .res _ => none

/-- The instructions that link `R7` (R11, `42_control.md` R90): JSR, JSRR and every TRAP. -/
def links : Instr → Bool
  | .addReg _ _ _ => false
  | .addImm _ _ _ => false
  | .andReg _ _ _ => false
  | .andImm _ _ _ => false
  | .not _ _ => false
  | .br _ _ => false
  | .jmp _ => false
  | .jsr _ => true
  | .jsrr _ => true
  | .ld _ _ => false
  | .ldi _ _ => false
  | .ldr _ _ _ => false
  | .lea _ _ => false
  | .st _ _ => false
  | .sti _ _ => false
  | .str _ _ _ => false
  | .trapGetc => true
  | .trapOut => true
  | .trapPuts => true
  | .trapIn => true
  | .trapPutsp => true
  | .trapHalt => true
  | .trapUndefined _ => true
  | .rti _ => false
  | .res _ => false

/-- The general registers an instruction may write: its flag-setting destination and the link register (R11). -/
def destRegs (i : Instr) : List Reg := (flagReg i).toList ++ (if links i then [7] else [])

/-- The families of the spec's instruction files 41 to 45. -/
inductive Kind where
  /-- ADD, AND, NOT (`41_alu.md`). -/
  | alu
  /-- BR, JMP, JSR, JSRR, the four control transfers (`42_control.md` R90). -/
  | transfer
  /-- LD, LDI, LDR (`43_load_store.md`). -/
  | load
  /-- LEA (R103). -/
  | lea
  /-- ST, STI, STR. -/
  | store
  /-- TRAP with one of the six routine vectors (`44_trap.md` R120). -/
  | routine
  /-- TRAP with another vector (R127). -/
  | undefinedTrap
  /-- RTI and RES (`45_rti_res.md`). -/
  | illegalOpcode
deriving DecidableEq, Repr

/-- The family of an instruction. -/
def kind : Instr → Kind
  | .addReg _ _ _ => .alu
  | .addImm _ _ _ => .alu
  | .andReg _ _ _ => .alu
  | .andImm _ _ _ => .alu
  | .not _ _ => .alu
  | .br _ _ => .transfer
  | .jmp _ => .transfer
  | .jsr _ => .transfer
  | .jsrr _ => .transfer
  | .ld _ _ => .load
  | .ldi _ _ => .load
  | .ldr _ _ _ => .load
  | .lea _ _ => .lea
  | .st _ _ => .store
  | .sti _ _ => .store
  | .str _ _ _ => .store
  | .trapGetc => .routine
  | .trapOut => .routine
  | .trapPuts => .routine
  | .trapIn => .routine
  | .trapPutsp => .routine
  | .trapHalt => .routine
  | .trapUndefined _ => .undefinedTrap
  | .rti _ => .illegalOpcode
  | .res _ => .illegalOpcode

/-- The three rows that raise the fatal decode error (`60_exceptions.md` R151). -/
def isIllegal (i : Instr) : Prop := kind i = .undefinedTrap ∨ kind i = .illegalOpcode

/-- The addresses an instruction reads through `memRead`, in order (`20_memory.md` R41). -/
def readAddresses (i : Instr) (s : State) : List Word :=
  match i with
  | .addReg _ _ _ => []
  | .addImm _ _ _ => []
  | .andReg _ _ _ => []
  | .andImm _ _ _ => []
  | .not _ _ => []
  | .br _ _ => []
  | .jmp _ => []
  | .jsr _ => []
  | .jsrr _ => []
  | .ld _ off => [s.pcRelative off]
  | .ldi _ off => [s.pcRelative off, (s.indirect off).1]
  | .ldr _ base off => [s.baseOffset base off]
  | .lea _ _ => []
  | .st _ _ => []
  | .sti _ off => [s.pcRelative off]
  | .str _ _ _ => []
  | .trapGetc => []
  | .trapOut => []
  | .trapPuts => []
  | .trapIn => []
  | .trapPutsp => []
  | .trapHalt => []
  | .trapUndefined _ => []
  | .rti _ => []
  | .res _ => []

/-- The address an instruction stores to (`20_memory.md` R41): for STI the pointer read before the store. -/
def storeAddresses (i : Instr) (s : State) : List Word :=
  match i with
  | .addReg _ _ _ => []
  | .addImm _ _ _ => []
  | .andReg _ _ _ => []
  | .andImm _ _ _ => []
  | .not _ _ => []
  | .br _ _ => []
  | .jmp _ => []
  | .jsr _ => []
  | .jsrr _ => []
  | .ld _ _ => []
  | .ldi _ _ => []
  | .ldr _ _ _ => []
  | .lea _ _ => []
  | .st _ off => [s.pcRelative off]
  | .sti _ off => [(s.indirect off).1]
  | .str _ base off => [s.baseOffset base off]
  | .trapGetc => []
  | .trapOut => []
  | .trapPuts => []
  | .trapIn => []
  | .trapPutsp => []
  | .trapHalt => []
  | .trapUndefined _ => []
  | .rti _ => []
  | .res _ => []

end Sys2Proof.Machine
end

