-- ==== Sys2Proof/Certificates/Slice0/Obligations.lean ====
section
/-! DEFINITION. The statements for the provers, about the spec's numbered rules. The terms FlagsOf, KeepsRegs, KeepsMem, KeepsStatus, KeepsInput, kind, flagReg, links, readAddresses and storeAddresses are those of `Sys2Proof/Safety.lean`. In every statement about `exec`, `s.pc` is the incremented PC (`40_execution_cycle.md` R72). -/

open Sys2Proof Sys2Proof.Machine

/-! ## Encoding (`30_encoding.md`) -/

/-- Decoding the word of a well-formed instruction gives it back, for every row and every operand (R53, R60; the opcode numbers are D1, log 1, and the unassigned bits of the word log 22). That RTI and RES have an operand, their low twelve bits, is the model's own choice (log 21). -/
def Obligations.DecodeOfEncodeIsTheInstruction : Prop :=
  ∀ i : Instr, i.wellFormed = true → decode (encode i) = i

/-- The other direction: the word of the decoded instruction has every bit the instruction depends on (R57; log 3, log 22). For RTI and RES that is the whole word, by the model's own choice (log 21). -/
def Obligations.EncodeOfDecodeKeepsTheAssignedBits : Prop :=
  ∀ w : Word, encode (decode w) &&& assignedBits (decode w) = w &&& assignedBits (decode w)

/-- "every 16-bit word matches exactly one row" of the table of R60, "with the priority of the six routine rows" applied, and the decoder answers a well-formed instruction of that row. The masks hold the opcode numbers of D1 (log 1). -/
def Obligations.EveryWordDecodesToItsOneTableRow : Prop :=
  ∀ w : Word, (decode w).wellFormed = true ∧
    ∃ row ∈ opcodeTable, row.mnemonic = (decode w).mnemonic ∧ row.accepts w = true ∧
      ∀ other ∈ opcodeTable, other.accepts w = true → other = row ∨ other.priority < row.priority

/-- The fields of the arithmetic and control rows are read at the positions of R53, as numbers (R6), whatever the bits of no field hold (D3, log 3). The masks and matches are those of R60 (opcode numbers: D1, log 1). -/
def Obligations.DecodeReadsArithmeticAndControlFields : Prop :=
  ∀ w : Word,
    (w &&& 0xF020 = 0x1000 → ∃ d a b : Reg, decode w = .addReg d a b ∧
      d.val = bitsOf w 11 9 ∧ a.val = bitsOf w 8 6 ∧ b.val = bitsOf w 2 0) ∧
    (w &&& 0xF020 = 0x1020 → ∃ (d a : Reg) (f : BitVec 5), decode w = .addImm d a f ∧
      d.val = bitsOf w 11 9 ∧ a.val = bitsOf w 8 6 ∧ f.toNat = bitsOf w 4 0) ∧
    (w &&& 0xF020 = 0x5000 → ∃ d a b : Reg, decode w = .andReg d a b ∧
      d.val = bitsOf w 11 9 ∧ a.val = bitsOf w 8 6 ∧ b.val = bitsOf w 2 0) ∧
    (w &&& 0xF020 = 0x5020 → ∃ (d a : Reg) (f : BitVec 5), decode w = .andImm d a f ∧
      d.val = bitsOf w 11 9 ∧ a.val = bitsOf w 8 6 ∧ f.toNat = bitsOf w 4 0) ∧
    (w &&& 0xF000 = 0x9000 → ∃ d a : Reg, decode w = .not d a ∧
      d.val = bitsOf w 11 9 ∧ a.val = bitsOf w 8 6) ∧
    (w &&& 0xF000 = 0x0000 → ∃ (m : BitVec 3) (f : BitVec 9), decode w = .br m f ∧
      m.toNat = bitsOf w 11 9 ∧ f.toNat = bitsOf w 8 0) ∧
    (w &&& 0xF000 = 0xC000 → ∃ b : Reg, decode w = .jmp b ∧ b.val = bitsOf w 8 6) ∧
    (w &&& 0xF800 = 0x4800 → ∃ f : BitVec 11, decode w = .jsr f ∧ f.toNat = bitsOf w 10 0) ∧
    (w &&& 0xF800 = 0x4000 → ∃ b : Reg, decode w = .jsrr b ∧ b.val = bitsOf w 8 6)

/-- The fields of the memory and trap rows are read at the positions of R53, as numbers (R6), whatever bits 11:8 of a TRAP hold (D3, log 3). R53 gives RTI and RES no field below the opcode: that they carry bits 11:0 is the model's own choice (log 21), and the last two clauses say where these bits are read. The masks and matches are those of R60 (opcode numbers: D1, log 1). -/
def Obligations.DecodeReadsMemoryAndTrapFields : Prop :=
  ∀ w : Word,
    (w &&& 0xF000 = 0x2000 → ∃ (d : Reg) (f : BitVec 9), decode w = .ld d f ∧
      d.val = bitsOf w 11 9 ∧ f.toNat = bitsOf w 8 0) ∧
    (w &&& 0xF000 = 0xA000 → ∃ (d : Reg) (f : BitVec 9), decode w = .ldi d f ∧
      d.val = bitsOf w 11 9 ∧ f.toNat = bitsOf w 8 0) ∧
    (w &&& 0xF000 = 0x6000 → ∃ (d b : Reg) (f : BitVec 6), decode w = .ldr d b f ∧
      d.val = bitsOf w 11 9 ∧ b.val = bitsOf w 8 6 ∧ f.toNat = bitsOf w 5 0) ∧
    (w &&& 0xF000 = 0xE000 → ∃ (d : Reg) (f : BitVec 9), decode w = .lea d f ∧
      d.val = bitsOf w 11 9 ∧ f.toNat = bitsOf w 8 0) ∧
    (w &&& 0xF000 = 0x3000 → ∃ (d : Reg) (f : BitVec 9), decode w = .st d f ∧
      d.val = bitsOf w 11 9 ∧ f.toNat = bitsOf w 8 0) ∧
    (w &&& 0xF000 = 0xB000 → ∃ (d : Reg) (f : BitVec 9), decode w = .sti d f ∧
      d.val = bitsOf w 11 9 ∧ f.toNat = bitsOf w 8 0) ∧
    (w &&& 0xF000 = 0x7000 → ∃ (d b : Reg) (f : BitVec 6), decode w = .str d b f ∧
      d.val = bitsOf w 11 9 ∧ b.val = bitsOf w 8 6 ∧ f.toNat = bitsOf w 5 0) ∧
    (w &&& 0xF0FF = 0xF020 → decode w = .trapGetc) ∧
    (w &&& 0xF0FF = 0xF021 → decode w = .trapOut) ∧
    (w &&& 0xF0FF = 0xF022 → decode w = .trapPuts) ∧
    (w &&& 0xF0FF = 0xF023 → decode w = .trapIn) ∧
    (w &&& 0xF0FF = 0xF024 → decode w = .trapPutsp) ∧
    (w &&& 0xF0FF = 0xF025 → decode w = .trapHalt) ∧
    (w &&& 0xF000 = 0xF000 → bitsOf w 7 0 < 0x20 ∨ 0x25 < bitsOf w 7 0 →
      ∃ v : BitVec 8, decode w = .trapUndefined v ∧ v.toNat = bitsOf w 7 0) ∧
    (w &&& 0xF000 = 0x8000 → ∃ f : BitVec 12, decode w = .rti f ∧ f.toNat = bitsOf w 11 0) ∧
    (w &&& 0xF000 = 0xD000 → ∃ f : BitVec 12, decode w = .res f ∧ f.toNat = bitsOf w 11 0)

/-- The bits that R57 lists change nothing: a word that agrees on the others decodes to the same instruction (the spec's decision D3, log 3). Nothing is said of bits 11:0 of RTI and RES, which R57 lists too: the model keeps them for the fault's info word (log 21). -/
def Obligations.UnassignedBitsChangeNothing : Prop :=
  ∀ w v : Word, v &&& assignedBits (decode w) = w &&& assignedBits (decode w) → decode v = decode w

/-- The illegal words of R58, complete: from a state without a fault, the cycle of a word sets the fault record exactly when the word's opcode is 8 or 13, or 15 with a vector outside 0x20..0x25 (opcode numbers: D1, log 1). -/
def Obligations.IllegalWordsAreExactlyThoseOfTheList : Prop :=
  ∀ (w : Word) (s : State), s.fault = none →
    ((∃ t, exec (decode w) s = .next t ∧ t.fault ≠ none) ↔
      bitsOf w 15 12 = 8 ∨ bitsOf w 15 12 = 13 ∨
        (bitsOf w 15 12 = 15 ∧ (bitsOf w 7 0 < 0x20 ∨ 0x25 < bitsOf w 7 0)))

/-- A sanity statement: words of `95_test_vectors.md`, written out bit by bit from the formats of R53, decode to the instructions they stand for (opcode numbers: D1, log 1; unassigned bits: D3, log 3; the operand of RES: log 21). -/
def Obligations.SampleWordsDecodeAsWritten : Prop :=
  decode 0b0001_001_001_0_00_001 = .addReg 1 1 1 ∧
  decode 0b0101_001_010_1_10000 = .andImm 1 2 0b10000 ∧
  decode 0b1001_100_100_111111 = .not 4 4 ∧
  decode 0b0000_001_111111101 = .br 0b001 0b111111101 ∧
  decode 0b0100_1_00000000100 = .jsr 4 ∧
  decode 0b0110_100_010_000001 = .ldr 4 2 1 ∧
  decode 0b1011_011_000000001 = .sti 3 1 ∧
  decode 0b1111_0101_00100101 = .trapHalt ∧
  decode 0b1111_0000_00100110 = .trapUndefined 0x26 ∧
  decode 0b1101_101010111100 = .res 0xABC

/-- `signExtend` (R55) on any 16-bit value and each width it is used for: bits n to 15 are set when bit n-1 is and the others stay, otherwise the value is unchanged; it is idempotent; and on an n-bit field it is the two's-complement extension. -/
def Obligations.SignExtendFollowsItsContract : Prop :=
  (∀ n ∈ [5, 6, 9, 11], ∀ v : Word,
    (v.getLsbD (n - 1) = true → ∀ k < 16, (signExtend v n).getLsbD k = (decide (n ≤ k) || v.getLsbD k)) ∧
    (v.getLsbD (n - 1) = false → signExtend v n = v) ∧
    signExtend (signExtend v n) n = signExtend v n) ∧
  (∀ n ∈ [5, 6, 9, 11], ∀ f : BitVec n,
    (f.toNat < 2 ^ (n - 1) → (sext f).toNat = f.toNat) ∧
    (2 ^ (n - 1) ≤ f.toNat → (sext f).toNat = f.toNat + 65536 - 2 ^ n) ∧
    (sext f).toInt = f.toInt)

/-! ## State, the cycle and whole-machine rules -/

/-- The reset values of `10_state.md` R22, every one the spec gives (FL_ZRO is D2, log 2; the fault record is D13, log 13). The console is not state of the core and is not spoken of. -/
def Obligations.ResetValuesAreThoseOfTheTable : Prop :=
  (∀ r : Reg, State.reset.reg r = 0x0000#16) ∧ State.reset.pc = 0x3000#16 ∧ State.reset.cond = 0x0002#16 ∧
  (∀ a : Word, State.reset.cell a = 0x0000#16) ∧ State.reset.run = true ∧ State.reset.fault = none ∧
  State.reset.status = .running

/-- The invariant holds after reset. The canonical form of memory in it is the model's own (log 20). -/
def Obligations.ResetMeetsTheInvariant : Prop := State.reset.Inv

/-- Every step keeps the invariant: COND is one of the three flags (R23), memory keeps its canonical form (the model's own, log 20), and `run` = 0 never stands beside a set fault record (R18). -/
def Obligations.EveryStepKeepsTheInvariant : Prop :=
  ∀ s t : State, s.Inv → step s = .next t → t.Inv

/-- In status RUNNING a step fetches the word at `M[pc]`, increments `pc` modulo 2^16, and executes the decoded instruction (R71). That the fetch reads raw at 0xFE00 is the spec's decision D5 (log 5). -/
def Obligations.StepRunsTheDecodedInstruction : Prop :=
  ∀ s : State, s.run = true → s.fault = none →
    ∃ s1 : State, step s = exec (decode (s.cell s.pc)) s1 ∧ s1.pc.toNat = (s.pc.toNat + 1) % 65536 ∧
      KeepsRegs s s1 [] ∧ s1.cond = s.cond ∧ KeepsMem s s1 [] ∧ s1.mem = s.mem ∧ KeepsStatus s s1 ∧
      s1.console = s.console

/-- No cycle is executed in a terminal status (R70, R74): a halted machine and a machine with a fault record answer their named stop, whatever else they hold (the two statuses are the spec's decision D13, log 13). -/
def Obligations.TerminalStatusesExecuteNoCycle : Prop :=
  ∀ s : State, (s.run = false → s.fault = none → step s = .fault .halted) ∧
    (∀ r, s.fault = some r → step s = .fault (.fatalDecodeError r))

/-- The transitions of R74: a step happens only in RUNNING, it leads to HALTED exactly when it runs the HALT trap, and to FATAL exactly when it runs RTI, RES or a TRAP with an undefined vector (statuses: D13, log 13; raw fetch: D5, log 5). -/
def Obligations.OnlyHaltAndIllegalInstructionsLeaveRunning : Prop :=
  ∀ s t : State, step s = .next t →
    s.status = .running ∧ (t.status = .halted ↔ decode (s.cell s.pc) = .trapHalt) ∧
    (t.status = .fatal ↔ isIllegal (decode (s.cell s.pc)))

/-- `SetCC(i)` (R14): it "reads one general register and writes all 16 bits of COND", and "writes nothing else". -/
def Obligations.SetCCWritesTheFlagOfTheRegister : Prop :=
  ∀ (s : State) (i : Reg), FlagsOf (s.reg i) (s.setCC i).cond ∧ KeepsRegs s (s.setCC i) [] ∧
    (s.setCC i).pc = s.pc ∧ (s.setCC i).mem = s.mem ∧ KeepsStatus s (s.setCC i) ∧ (s.setCC i).console = s.console

/-- R15: exactly the listed instructions write COND, each with the register it wrote; every other leaves COND as it was. -/
def Obligations.OnlyTheListedInstructionsWriteCond : Prop :=
  ∀ (i : Instr) (s t : State), exec i s = .next t →
    (∀ r, flagReg i = some r → FlagsOf (t.reg r) t.cond) ∧ (flagReg i = none → t.cond = s.cond)

/-- R16: COND is read by BR only. For every other instruction, changing COND beforehand changes nothing in the outcome but COND itself, and not even that when the instruction sets it. -/
def Obligations.OnlyBranchReadsCond : Prop :=
  ∀ (i : Instr) (s : State) (c : Word), (∀ m off, i ≠ .br m off) →
    exec i (s.setCond c) = mapNext (fun t => if flagReg i = none then t.setCond c else t) (exec i s)

/-- The general registers change only as `10_state.md` R11 says: the flag-setting destination, `R0` for GETC and IN, and `R7` for the links. Nothing is said of a TRAP with an undefined vector (U1, log 14). -/
def Obligations.GeneralRegistersChangeOnlyWhereNamed : Prop :=
  ∀ (i : Instr) (s t : State), kind i ≠ .undefinedTrap → exec i s = .next t →
    KeepsRegs s t (destRegs i) ∧ (links i = true → t.reg 7 = s.pc)

/-- The running flag is cleared only by HALT and the fault record is written only by the three illegal rows (R18, R152; the record is D13, log 13). -/
def Obligations.RunAndFaultChangeOnlyByHaltAndIllegal : Prop :=
  ∀ (i : Instr) (s t : State), exec i s = .next t →
    (i ≠ .trapHalt → t.run = s.run) ∧ (i = .trapHalt → t.run = false) ∧
    (¬ isIllegal i → t.fault = s.fault) ∧ (isIllegal i → t.fault ≠ none)

/-- The memory frame of every instruction (R17, R41, R42): a cell changes only where the instruction stores, and at KBSR and KBDR when it reads KBSR through MemRead. The addresses are computed by the functions the meanings use. Nothing is said of a TRAP with an undefined vector (U1, log 14). -/
def Obligations.MemoryChangesOnlyByStoresAndThePoll : Prop :=
  ∀ (i : Instr) (s t : State), kind i ≠ .undefinedTrap → exec i s = .next t →
    KeepsMem s t (storeAddresses i s ++ (if Config.kbsr ∈ readAddresses i s then [0xFE00#16, 0xFE02#16] else []))

/-- R90: of all instructions that do not fault, only BR, JMP, JSR and JSRR write `pc` beyond the fetch increment; and none of the four touches memory, COND, the status or the console. -/
def Obligations.OnlyControlTransfersWritePc : Prop :=
  ∀ (i : Instr) (s t : State), kind i ≠ .undefinedTrap → exec i s = .next t →
    (kind i ≠ .transfer → t.pc = s.pc) ∧
    (kind i = .transfer → t.mem = s.mem ∧ t.cond = s.cond ∧ KeepsStatus s t ∧ t.console = s.console)

/-- R45, R76: the console is called only by a read of KBSR and by the trap routines. Every other cycle is a function of the rest of the state, and leaves the console as it found it. -/
def Obligations.OnlyKbsrReadsAndTrapsReachTheConsole : Prop :=
  ∀ (i : Instr) (s : State) (c : Console), kind i ≠ .routine → Config.kbsr ∉ readAddresses i s →
    exec i (s.setConsole c) = mapNext (fun t => t.setConsole c) (exec i s) ∧
    ∀ t, exec i s = .next t → t.console = s.console

/-- `MemWrite` stores at every address and does nothing else (R36); at the two keyboard addresses by the spec's decision D9 (log 9). -/
def Obligations.MemWriteStoresUnconditionally : Prop :=
  ∀ (s : State) (a v : Word), let t := s.memWrite a v
    t.cell a = v ∧ KeepsMem s t [a] ∧ KeepsRegs s t [] ∧ t.pc = s.pc ∧ t.cond = s.cond ∧ KeepsStatus s t ∧
    t.console = s.console

/-- `MemRead` of every address but KBSR returns the stored cell, with no side effect (R37). At KBDR, 0xFE02, which is one of these addresses, that is R39, the spec's decision D9 (log 9). -/
def Obligations.OrdinaryReadReturnsTheCell : Prop :=
  ∀ (s : State) (a : Word), a ≠ 0xFE00#16 → s.memRead a = (s.cell a, s)

/-- The read of KBSR (R38): it asks the console; when a key is available it stores and returns 0x8000 (D7, log 7) and moves the next character, consumed unechoed, into KBDR (D8, log 8); otherwise it clears KBSR, returns 0 and reads no character. -/
def Obligations.KbsrReadPollsTheConsole : Prop :=
  ∀ s : State, let r := s.memRead 0xFE00#16; let c := s.console
    (c.keyAnswer = true → r.1 = 0x8000#16 ∧ r.2.cell 0xFE00#16 = 0x8000#16 ∧ KeepsMem s r.2 [0xFE00#16, 0xFE02#16] ∧
      r.2.console.calls = c.calls ++ [.keyAvailable true, .readChar (r.2.cell 0xFE02#16)] ∧
      (∀ k rest, c.codes = k :: rest → r.2.cell 0xFE02#16 = k) ∧ r.2.console.codes = c.codes.tail) ∧
    (c.keyAnswer = false → r.1 = 0x0000#16 ∧ r.2.cell 0xFE00#16 = 0x0000#16 ∧ KeepsMem s r.2 [0xFE00#16] ∧
      r.2.console.calls = c.calls ++ [.keyAvailable false] ∧ r.2.console.codes = c.codes) ∧
    (∀ b rest, c.answers = true → c.schedule = b :: rest → c.keyAnswer = b) ∧
    r.2.console.schedule = c.schedule.tail ∧ KeepsRegs s r.2 [] ∧ r.2.pc = s.pc ∧ r.2.cond = s.cond ∧ KeepsStatus s r.2

/-- Property S7 of `95_test_vectors.md`, in R38: while no key is pending, every one of `n` reads of KBSR returns 0, asks the console anew and reads no character. -/
def Obligations.RepeatedPollsWithoutAKeyReturnZero : Prop :=
  ∀ (n : Nat) (s : State) (rest : List Bool), s.console.schedule = List.replicate (n + 1) false ++ rest →
    let t := (fun u : State => (u.memRead 0xFE00#16).2)^[n] s
    (t.memRead 0xFE00#16).1 = 0x0000#16 ∧
    (t.memRead 0xFE00#16).2.console.calls = s.console.calls ++ List.replicate (n + 1) (.keyAvailable false) ∧
    KeepsMem s (t.memRead 0xFE00#16).2 [0xFE00#16]

/-- R48: a program may overwrite the very next instruction, and the new word is the one executed. The store is `ST src, +0`. -/
def Obligations.StoredWordIsTheNextInstruction : Prop :=
  ∀ (s : State) (src : Reg), s.run = true → s.fault = none → decode (s.cell s.pc) = .st src 0 →
    ∃ t s1 : State, step s = .next t ∧ step t = exec (decode (s.reg src)) s1 ∧ s1.pc = s.pc + 2 ∧
      KeepsRegs s s1 [] ∧ s1.cond = s.cond

/-- Two memories in canonical form (the model's own, log 20) that read the same everywhere are the same data. -/
def Obligations.CanonicalMemoriesThatReadAlikeAreEqual : Prop :=
  ∀ m n : Memory, m.wf → n.wf → (∀ a < 65536, m.read a = n.read a) → m = n

/-- The loader's writes for one image (R172): `M[o + i] <- w_i` for each data word, every other cell as before, and nothing else in the machine (the boundary is the spec's decision D16, log 16). An image that runs past 0xFFFF is spoken of too, and R172 and `91_not_in_source.md` N14 leave it open: that it wraps to 0x0000 is the model's own choice (log 31). An image longer than memory is not spoken of. -/
def Obligations.ImageIsLoadedAtItsOrigin : Prop :=
  ∀ (s : State) (origin : Word) (data : List Word), data.length ≤ 65536 →
    let t := s.loadImage origin data
    (∀ (k : Nat) (h : k < data.length), t.cell (origin + BitVec.ofNat 16 k) = data[k]) ∧
    (∀ a : Word, (∀ k < data.length, a ≠ origin + BitVec.ofNat 16 k) → t.cell a = s.cell a) ∧
    t.regs = s.regs ∧ t.pc = s.pc ∧ t.cond = s.cond ∧ KeepsStatus s t ∧ t.console = s.console

/-! ## Arithmetic and logic (`41_alu.md`) -/

/-- R80. -/
def Obligations.AddRegisterSumsModulo65536 : Prop :=
  (∀ w : Word, Config.opc (opField w) = .add → w.getLsbD 5 = false →
    decode w = .addReg (regField w 9) (regField w 6) (regField w 0)) ∧
  ∀ (dst src1 src2 : Reg) (s : State), ∃ t, exec (.addReg dst src1 src2) s = .next t ∧
    (t.reg dst).toNat = ((s.reg src1).toNat + (s.reg src2).toNat) % 65536 ∧ FlagsOf (t.reg dst) t.cond ∧
    KeepsRegs s t [dst] ∧ t.pc = s.pc ∧ KeepsMem s t [] ∧ KeepsStatus s t ∧ t.console = s.console

/-- R81. -/
def Obligations.AddImmediateSumsTheExtendedImmediate : Prop :=
  (∀ w : Word, Config.opc (opField w) = .add → w.getLsbD 5 = true →
    decode w = .addImm (regField w 9) (regField w 6) (field w 0 5)) ∧
  ∀ (dst src1 : Reg) (imm5 : BitVec 5) (s : State), ∃ t, exec (.addImm dst src1 imm5) s = .next t ∧
    (t.reg dst).toNat = ((s.reg src1).toNat + (imm5.signExtend 16).toNat) % 65536 ∧ FlagsOf (t.reg dst) t.cond ∧
    KeepsRegs s t [dst] ∧ t.pc = s.pc ∧ KeepsMem s t [] ∧ KeepsStatus s t ∧ t.console = s.console

/-- R82. -/
def Obligations.AndRegisterActsOnEachBit : Prop :=
  (∀ w : Word, Config.opc (opField w) = .and → w.getLsbD 5 = false →
    decode w = .andReg (regField w 9) (regField w 6) (regField w 0)) ∧
  ∀ (dst src1 src2 : Reg) (s : State), ∃ t, exec (.andReg dst src1 src2) s = .next t ∧
    (∀ k < 16, (t.reg dst).getLsbD k = ((s.reg src1).getLsbD k && (s.reg src2).getLsbD k)) ∧
    FlagsOf (t.reg dst) t.cond ∧
    KeepsRegs s t [dst] ∧ t.pc = s.pc ∧ KeepsMem s t [] ∧ KeepsStatus s t ∧ t.console = s.console

/-- R83. -/
def Obligations.AndImmediateMasksWithTheExtendedImmediate : Prop :=
  (∀ w : Word, Config.opc (opField w) = .and → w.getLsbD 5 = true →
    decode w = .andImm (regField w 9) (regField w 6) (field w 0 5)) ∧
  ∀ (dst src1 : Reg) (imm5 : BitVec 5) (s : State), ∃ t, exec (.andImm dst src1 imm5) s = .next t ∧
    (∀ k < 16, (t.reg dst).getLsbD k = ((s.reg src1).getLsbD k && (imm5.signExtend 16).getLsbD k)) ∧
    FlagsOf (t.reg dst) t.cond ∧
    KeepsRegs s t [dst] ∧ t.pc = s.pc ∧ KeepsMem s t [] ∧ KeepsStatus s t ∧ t.console = s.console

/-- R84. -/
def Obligations.NotComplementsEveryBit : Prop :=
  (∀ w : Word, Config.opc (opField w) = .not → decode w = .not (regField w 9) (regField w 6)) ∧
  ∀ (dst src : Reg) (s : State), ∃ t, exec (.not dst src) s = .next t ∧
    (t.reg dst).toNat = 0xFFFF - (s.reg src).toNat ∧ FlagsOf (t.reg dst) t.cond ∧
    KeepsRegs s t [dst] ∧ t.pc = s.pc ∧ KeepsMem s t [] ∧ KeepsStatus s t ∧ t.console = s.console

/-! ## Control transfer (`42_control.md`) -/

/-- R91, with its corner cases: a zero mask is never taken, and a mask of 7 always is, "because exactly one flag is always set" (R23, the premise `condLegal`). -/
def Obligations.BranchIsTakenOnTheSelectedFlag : Prop :=
  (∀ w : Word, Config.opc (opField w) = .br → decode w = .br (field w 9 3) (field w 0 9)) ∧
  ∀ (condMask : BitVec 3) (pcOffset9 : BitVec 9) (s : State), ∃ t, exec (.br condMask pcOffset9) s = .next t ∧
    (condMask.setWidth 16 &&& s.cond ≠ 0 → t.pc = s.pc + pcOffset9.signExtend 16) ∧
    (condMask.setWidth 16 &&& s.cond = 0 → t.pc = s.pc) ∧
    (condMask = 0 → t.pc = s.pc) ∧
    (condMask = 7 → s.condLegal → t.pc = s.pc + pcOffset9.signExtend 16) ∧
    KeepsRegs s t [] ∧ t.cond = s.cond ∧ KeepsMem s t [] ∧ KeepsStatus s t ∧ t.console = s.console

/-- R92. -/
def Obligations.JumpGoesToTheBaseRegister : Prop :=
  (∀ w : Word, Config.opc (opField w) = .jmp → decode w = .jmp (regField w 6)) ∧
  ∀ (base : Reg) (s : State), ∃ t, exec (.jmp base) s = .next t ∧ t.pc = s.reg base ∧
    KeepsRegs s t [] ∧ t.cond = s.cond ∧ KeepsMem s t [] ∧ KeepsStatus s t ∧ t.console = s.console

/-- R93. -/
def Obligations.JsrLinksAndJumpsRelative : Prop :=
  (∀ w : Word, Config.opc (opField w) = .jsr → w.getLsbD 11 = true → decode w = .jsr (field w 0 11)) ∧
  ∀ (pcOffset11 : BitVec 11) (s : State), ∃ t, exec (.jsr pcOffset11) s = .next t ∧
    t.reg 7 = s.pc ∧ t.pc = s.pc + pcOffset11.signExtend 16 ∧
    KeepsRegs s t [7] ∧ t.cond = s.cond ∧ KeepsMem s t [] ∧ KeepsStatus s t ∧ t.console = s.console

/-- R94 for the bases `R0` to `R6`, where "the order is immaterial". The base `R7` is JsrrThroughR7GoesToTheNextInstruction. -/
def Obligations.JsrrLinksAndJumpsToTheBase : Prop :=
  (∀ w : Word, Config.opc (opField w) = .jsr → w.getLsbD 11 = false → decode w = .jsrr (regField w 6)) ∧
  ∀ (base : Reg) (s : State), base ≠ 7 → ∃ t, exec (.jsrr base) s = .next t ∧
    t.reg 7 = s.pc ∧ t.pc = s.reg base ∧
    KeepsRegs s t [7] ∧ t.cond = s.cond ∧ KeepsMem s t [] ∧ KeepsStatus s t ∧ t.console = s.console

/-- R94 with base `R7`: the link comes first, so the target is the link just written. This is the spec's own decision D4 (log 4), not a sentence of the source. -/
def Obligations.JsrrThroughR7GoesToTheNextInstruction : Prop :=
  ∀ s : State, ∃ t, exec (.jsrr 7) s = .next t ∧ t.reg 7 = s.pc ∧ t.pc = s.pc ∧
    KeepsRegs s t [7] ∧ t.cond = s.cond ∧ KeepsMem s t [] ∧ KeepsStatus s t ∧ t.console = s.console

/-! ## Loads, stores and LEA (`43_load_store.md`) -/

/-- R107: the three addressing modes, modulo 2^16, and the pointer of the indirect mode is the word MemRead returns. -/
def Obligations.AddressingModesAreTheThree : Prop :=
  (∀ (s : State) (off : BitVec 9), (s.pcRelative off).toNat = (s.pc.toNat + (off.signExtend 16).toNat) % 65536) ∧
  (∀ (s : State) (base : Reg) (off : BitVec 6),
    (s.baseOffset base off).toNat = ((s.reg base).toNat + (off.signExtend 16).toNat) % 65536) ∧
  (∀ (s : State) (off : BitVec 9), s.indirect off = s.memRead (s.pc + off.signExtend 16))

/-- R100. `MemRead` is the model's `memRead`, stated by OrdinaryReadReturnsTheCell and KbsrReadPollsTheConsole. -/
def Obligations.LdLoadsThePcRelativeWord : Prop :=
  (∀ w : Word, Config.opc (opField w) = .ld → decode w = .ld (regField w 9) (field w 0 9)) ∧
  ∀ (dst : Reg) (off : BitVec 9) (s : State), ∃ t, exec (.ld dst off) s = .next t ∧
    let got := s.memRead (s.pcRelative off)
    t.reg dst = got.1 ∧ FlagsOf (t.reg dst) t.cond ∧ KeepsRegs s t [dst] ∧ t.pc = s.pc ∧
    KeepsMem got.2 t [] ∧ (s.pcRelative off ≠ 0xFE00#16 → KeepsMem s t []) ∧ KeepsStatus s t ∧
    t.console = got.2.console

/-- R101: both reads through `MemRead`, the pointer first. -/
def Obligations.LdiLoadsThroughThePointer : Prop :=
  (∀ w : Word, Config.opc (opField w) = .ldi → decode w = .ldi (regField w 9) (field w 0 9)) ∧
  ∀ (dst : Reg) (off : BitVec 9) (s : State), ∃ t, exec (.ldi dst off) s = .next t ∧
    let pointer := s.memRead (s.pcRelative off)
    let got := pointer.2.memRead pointer.1
    t.reg dst = got.1 ∧ FlagsOf (t.reg dst) t.cond ∧ KeepsRegs s t [dst] ∧ t.pc = s.pc ∧
    KeepsMem got.2 t [] ∧
    (s.pcRelative off ≠ 0xFE00#16 → s.cell (s.pcRelative off) ≠ 0xFE00#16 → KeepsMem s t []) ∧ KeepsStatus s t ∧
    t.console = got.2.console

/-- R102: the address comes from the old base register, also when `dst` is the base. -/
def Obligations.LdrLoadsTheBaseOffsetWord : Prop :=
  (∀ w : Word, Config.opc (opField w) = .ldr → decode w = .ldr (regField w 9) (regField w 6) (field w 0 6)) ∧
  ∀ (dst base : Reg) (off : BitVec 6) (s : State), ∃ t, exec (.ldr dst base off) s = .next t ∧
    let got := s.memRead (s.baseOffset base off)
    t.reg dst = got.1 ∧ FlagsOf (t.reg dst) t.cond ∧ KeepsRegs s t [dst] ∧ t.pc = s.pc ∧
    KeepsMem got.2 t [] ∧ (s.baseOffset base off ≠ 0xFE00#16 → KeepsMem s t []) ∧ KeepsStatus s t ∧
    t.console = got.2.console

/-- R103: the address, not the word there; no memory access, so no poll. -/
def Obligations.LeaLoadsTheAddressAndSetsFlags : Prop :=
  (∀ w : Word, Config.opc (opField w) = .lea → decode w = .lea (regField w 9) (field w 0 9)) ∧
  ∀ (dst : Reg) (off : BitVec 9) (s : State), ∃ t, exec (.lea dst off) s = .next t ∧
    t.reg dst = s.pc + off.signExtend 16 ∧ FlagsOf (t.reg dst) t.cond ∧
    KeepsRegs s t [dst] ∧ t.pc = s.pc ∧ KeepsMem s t [] ∧ KeepsStatus s t ∧ t.console = s.console

/-- R104. -/
def Obligations.StStoresAtThePcRelativeAddress : Prop :=
  (∀ w : Word, Config.opc (opField w) = .st → decode w = .st (regField w 9) (field w 0 9)) ∧
  ∀ (src : Reg) (off : BitVec 9) (s : State), ∃ t, exec (.st src off) s = .next t ∧
    t.cell (s.pcRelative off) = s.reg src ∧ KeepsMem s t [s.pcRelative off] ∧
    KeepsRegs s t [] ∧ t.pc = s.pc ∧ t.cond = s.cond ∧ KeepsStatus s t ∧ t.console = s.console

/-- R105: the pointer is read through `MemRead` before the store. -/
def Obligations.StiStoresThroughThePointer : Prop :=
  (∀ w : Word, Config.opc (opField w) = .sti → decode w = .sti (regField w 9) (field w 0 9)) ∧
  ∀ (src : Reg) (off : BitVec 9) (s : State), ∃ t, exec (.sti src off) s = .next t ∧
    let pointer := s.memRead (s.pcRelative off)
    t.cell pointer.1 = s.reg src ∧ KeepsMem pointer.2 t [pointer.1] ∧
    (s.pcRelative off ≠ 0xFE00#16 → KeepsMem s t [s.cell (s.pcRelative off)]) ∧
    KeepsRegs s t [] ∧ t.pc = s.pc ∧ t.cond = s.cond ∧ KeepsStatus s t ∧ t.console = pointer.2.console

/-- R106. -/
def Obligations.StrStoresAtTheBaseOffsetAddress : Prop :=
  (∀ w : Word, Config.opc (opField w) = .str → decode w = .str (regField w 9) (regField w 6) (field w 0 6)) ∧
  ∀ (src base : Reg) (off : BitVec 6) (s : State), ∃ t, exec (.str src base off) s = .next t ∧
    t.cell (s.baseOffset base off) = s.reg src ∧ KeepsMem s t [s.baseOffset base off] ∧
    KeepsRegs s t [] ∧ t.pc = s.pc ∧ t.cond = s.cond ∧ KeepsStatus s t ∧ t.console = s.console

/-! ## Traps (`44_trap.md`) -/

/-- R121: GETC takes one unechoed character, all 16 bits of it (D10, log 10), when one will come; when none ever comes the read never returns (U6, log 18). -/
def Obligations.GetcReadsOneCharacterIntoR0 : Prop :=
  (∀ w : Word, Config.opc (opField w) = .trap → field w 0 8 = 0x20 → decode w = .trapGetc) ∧
  ∀ s : State,
    (s.console.answers = true → ∃ t, exec .trapGetc s = .next t ∧
      t.console.calls = s.console.calls ++ [.readChar (t.reg 0)] ∧
      (∀ k rest, s.console.codes = k :: rest → t.reg 0 = k) ∧
      t.console.codes = s.console.codes.tail ∧ t.console.schedule = s.console.schedule ∧
      t.reg 7 = s.pc ∧ FlagsOf (t.reg 0) t.cond ∧ KeepsRegs s t [0, 7] ∧ t.pc = s.pc ∧ KeepsMem s t [] ∧
      KeepsStatus s t) ∧
    (s.console.answers = false → exec .trapGetc s = .fault .consoleReadNeverReturns)

/-- R122: OUT hands the whole of `R0` to the console (D10, log 10). -/
def Obligations.OutWritesR0 : Prop :=
  (∀ w : Word, Config.opc (opField w) = .trap → field w 0 8 = 0x21 → decode w = .trapOut) ∧
  ∀ s : State, ∃ t, exec .trapOut s = .next t ∧
    t.console.calls = s.console.calls ++ [.writeChar (s.reg 0)] ∧ KeepsInput s.console t.console ∧
    t.reg 7 = s.pc ∧ KeepsRegs s t [7] ∧ t.pc = s.pc ∧ t.cond = s.cond ∧ KeepsMem s t [] ∧ KeepsStatus s t

/-- R123: PUTS writes the cells from `x[0]` up to, and without, the first zero cell (raw reads: D6, log 6; whole cells: D10, log 10); with no zero cell in memory it never ends (U7, log 19). -/
def Obligations.PutsWritesCellsUpToTheFirstZero : Prop :=
  (∀ w : Word, Config.opc (opField w) = .trap → field w 0 8 = 0x22 → decode w = .trapPuts) ∧
  ∀ s : State, let at_ := fun k : Nat => s.cell (s.reg 0 + BitVec.ofNat 16 k)
    (∀ n : Nat, (∀ k < n, at_ k ≠ 0x0000#16) → at_ n = 0x0000#16 → ∃ t, exec .trapPuts s = .next t ∧
      t.console.calls = s.console.calls ++ (List.range n).map (fun k => .writeChar (at_ k)) ∧
      KeepsInput s.console t.console ∧
      t.reg 7 = s.pc ∧ KeepsRegs s t [7] ∧ t.pc = s.pc ∧ t.cond = s.cond ∧ KeepsMem s t [] ∧ KeepsStatus s t) ∧
    ((∀ a, s.cell a ≠ 0x0000#16) → exec .trapPuts s = .fault .stringNeverEnds)

/-- R124: IN writes the prompt, whatever its text (D11, log 11), then reads one echoed character, the echo being the console's own (D24, log 24); when none ever comes the read never returns (U6, log 18). -/
def Obligations.InPromptsAndReadsOneEchoedCharacter : Prop :=
  (∀ w : Word, Config.opc (opField w) = .trap → field w 0 8 = 0x23 → decode w = .trapIn) ∧
  ∀ s : State,
    (s.console.answers = true → ∃ t, exec .trapIn s = .next t ∧
      t.console.calls = s.console.calls ++ Config.inPrompt.map .writeChar ++ [.readCharEcho (t.reg 0)] ∧
      (∀ k rest, s.console.codes = k :: rest → t.reg 0 = k) ∧
      t.console.codes = s.console.codes.tail ∧ t.console.schedule = s.console.schedule ∧
      t.reg 7 = s.pc ∧ FlagsOf (t.reg 0) t.cond ∧ KeepsRegs s t [0, 7] ∧ t.pc = s.pc ∧ KeepsMem s t [] ∧
      KeepsStatus s t) ∧
    (s.console.answers = false → exec .trapIn s = .fault .consoleReadNeverReturns)

/-- R125: PUTSP writes the bytes of the cells from `x[0]`, low byte first and the high byte if it is not zero, and stops at the first cell whose low byte is zero (raw reads: D6, log 6); with no such cell in memory it never ends (U7, log 19). -/
def Obligations.PutspWritesBytesUpToTheFirstZeroLowByte : Prop :=
  (∀ w : Word, Config.opc (opField w) = .trap → field w 0 8 = 0x24 → decode w = .trapPutsp) ∧
  ∀ s : State, let at_ := fun k : Nat => s.cell (s.reg 0 + BitVec.ofNat 16 k)
    (∀ n : Nat, (∀ k < n, lowByte (at_ k) ≠ 0) → lowByte (at_ n) = 0 → ∃ t, exec .trapPutsp s = .next t ∧
      t.console.calls = s.console.calls ++ (List.range n).flatMap (fun k =>
        ConsoleCall.writeChar (lowByte (at_ k)) ::
          (if highByte (at_ k) = 0 then [] else [ConsoleCall.writeChar (highByte (at_ k))])) ∧
      KeepsInput s.console t.console ∧
      t.reg 7 = s.pc ∧ KeepsRegs s t [7] ∧ t.pc = s.pc ∧ t.cond = s.cond ∧ KeepsMem s t [] ∧ KeepsStatus s t) ∧
    ((∀ a, lowByte (s.cell a) ≠ 0) → exec .trapPutsp s = .fault .stringNeverEnds)

/-- PUTS completes from exactly the states in which some cell of memory is zero, wherever it is (R123, U7; raw reads: D6, log 6). -/
def Obligations.PutsEndsExactlyWhenSomeCellIsZero : Prop :=
  ∀ s : State, (∃ t, exec .trapPuts s = .next t) ↔ ∃ a, s.cell a = 0x0000#16

/-- PUTSP completes from exactly the states in which some cell has a zero low byte (R125, U7; raw reads: D6, log 6). -/
def Obligations.PutspEndsExactlyWhenSomeLowByteIsZero : Prop :=
  ∀ s : State, (∃ t, exec .trapPutsp s = .next t) ↔ ∃ a, lowByte (s.cell a) = 0

/-- R126: HALT writes its message, whatever its text, and clears the running flag; the cycle completes and no further one begins. That HALT writes a message parameter at all is the spec's decision D12 (log 12); the stop of the next step is D13 and the model's form of it (log 13). -/
def Obligations.HaltClearsTheRunningFlag : Prop :=
  (∀ w : Word, Config.opc (opField w) = .trap → field w 0 8 = 0x25 → decode w = .trapHalt) ∧
  ∀ s : State, ∃ t, exec .trapHalt s = .next t ∧ t.run = false ∧ t.fault = s.fault ∧
    t.console.calls = s.console.calls ++ Config.haltMessage.map .writeChar ∧ KeepsInput s.console t.console ∧
    t.reg 7 = s.pc ∧ KeepsRegs s t [7] ∧ t.pc = s.pc ∧ t.cond = s.cond ∧ KeepsMem s t [] ∧
    (s.fault = none → step t = .fault .halted)

/-- The table of R128 for the six routines: the link in `R7`, no other register but `R0` in GETC and IN, no cell, not `pc`, not the fault record, and `run` by HALT only (that the lists are complete is the spec's decision D19, log 23). -/
def Obligations.RoutinesTouchOnlyWhatTheTableLists : Prop :=
  ∀ (i : Instr) (s t : State), kind i = .routine → exec i s = .next t →
    t.reg 7 = s.pc ∧ KeepsRegs s t [0, 7] ∧ (flagReg i = none → t.reg 0 = s.reg 0 ∧ t.cond = s.cond) ∧
    t.pc = s.pc ∧ KeepsMem s t [] ∧ t.fault = s.fault ∧ (i ≠ .trapHalt → t.run = s.run)

/-- R127: an undefined vector raises the fatal decode error with the vector as its info (cause codes and record: D13, log 13), `run` stays 1, no console call is made and no further cycle begins. Nothing is claimed of the registers or of memory (U1, log 14). -/
def Obligations.UndefinedVectorRaisesTheFatalError : Prop :=
  (∀ w : Word, Config.opc (opField w) = .trap → field w 0 8 ∉ [0x20, 0x21, 0x22, 0x23, 0x24, 0x25] →
    decode w = .trapUndefined (field w 0 8)) ∧
  ∀ (vector : BitVec 8) (s : State), Instr.wellFormed (.trapUndefined vector) = true →
    ∃ t, exec (.trapUndefined vector) s = .next t ∧
      t.fault = some ⟨.undefinedTrapVector, vector.setWidth 16⟩ ∧ FatalCause.undefinedTrapVector.code = 3 ∧
      t.run = s.run ∧ t.console = s.console ∧
      step t = .fault (.fatalDecodeError ⟨.undefinedTrapVector, vector.setWidth 16⟩)

/-! ## The illegal opcodes (`45_rti_res.md`) -/

/-- R140: every RTI word raises the fatal decode error with the word as its info (record: D13, log 13; the operand that carries its low bits: log 21), changes nothing else, and no further cycle begins. -/
def Obligations.RtiRaisesTheFatalError : Prop :=
  (∀ (w : Word) (s : State), Config.opc (opField w) = .rti → ∃ t, exec (decode w) s = .next t ∧
    t.fault = some ⟨.illegalOpcodeRTI, w⟩) ∧
  ∀ (low : BitVec 12) (s : State), ∃ t info, exec (.rti low) s = .next t ∧
    t.fault = some ⟨.illegalOpcodeRTI, info⟩ ∧ info.setWidth 12 = low ∧ FatalCause.illegalOpcodeRTI.code = 1 ∧
    KeepsRegs s t [] ∧ t.pc = s.pc ∧ t.cond = s.cond ∧ KeepsMem s t [] ∧ t.run = s.run ∧ t.console = s.console ∧
    step t = .fault (.fatalDecodeError ⟨.illegalOpcodeRTI, info⟩)

/-- R141: every RES word raises the fatal decode error with the word as its info (record: D13, log 13; the operand that carries its low bits: log 21), changes nothing else, and no further cycle begins. -/
def Obligations.ResRaisesTheFatalError : Prop :=
  (∀ (w : Word) (s : State), Config.opc (opField w) = .res → ∃ t, exec (decode w) s = .next t ∧
    t.fault = some ⟨.illegalOpcodeRES, w⟩) ∧
  ∀ (low : BitVec 12) (s : State), ∃ t info, exec (.res low) s = .next t ∧
    t.fault = some ⟨.illegalOpcodeRES, info⟩ ∧ info.setWidth 12 = low ∧ FatalCause.illegalOpcodeRES.code = 2 ∧
    KeepsRegs s t [] ∧ t.pc = s.pc ∧ t.cond = s.cond ∧ KeepsMem s t [] ∧ t.run = s.run ∧ t.console = s.console ∧
    step t = .fault (.fatalDecodeError ⟨.illegalOpcodeRES, info⟩)
end

