-- ==== Sys2Proof/Laws/State.lean ====
section
/-! SUPPORT. One lemma per field of State and per update, each true by rfl, and the laws of register reads and writes, so that no later proof unfolds a record update. -/

namespace Sys2Proof.Machine.State

/-! ## setReg -/

@[simp] theorem setReg_regs (s : State) (i : Reg) (v : Word) : (s.setReg i v).regs = s.regs.set i v := rfl
@[simp] theorem setReg_pc (s : State) (i : Reg) (v : Word) : (s.setReg i v).pc = s.pc := rfl
@[simp] theorem setReg_cond (s : State) (i : Reg) (v : Word) : (s.setReg i v).cond = s.cond := rfl
@[simp] theorem setReg_mem (s : State) (i : Reg) (v : Word) : (s.setReg i v).mem = s.mem := rfl
@[simp] theorem setReg_run (s : State) (i : Reg) (v : Word) : (s.setReg i v).run = s.run := rfl
@[simp] theorem setReg_fault (s : State) (i : Reg) (v : Word) : (s.setReg i v).fault = s.fault := rfl
@[simp] theorem setReg_console (s : State) (i : Reg) (v : Word) : (s.setReg i v).console = s.console := rfl

/-! ## setPc -/

@[simp] theorem setPc_regs (s : State) (t : Word) : (s.setPc t).regs = s.regs := rfl
@[simp] theorem setPc_pc (s : State) (t : Word) : (s.setPc t).pc = t := rfl
@[simp] theorem setPc_cond (s : State) (t : Word) : (s.setPc t).cond = s.cond := rfl
@[simp] theorem setPc_mem (s : State) (t : Word) : (s.setPc t).mem = s.mem := rfl
@[simp] theorem setPc_run (s : State) (t : Word) : (s.setPc t).run = s.run := rfl
@[simp] theorem setPc_fault (s : State) (t : Word) : (s.setPc t).fault = s.fault := rfl
@[simp] theorem setPc_console (s : State) (t : Word) : (s.setPc t).console = s.console := rfl

/-! ## setCond -/

@[simp] theorem setCond_regs (s : State) (f : Word) : (s.setCond f).regs = s.regs := rfl
@[simp] theorem setCond_pc (s : State) (f : Word) : (s.setCond f).pc = s.pc := rfl
@[simp] theorem setCond_cond (s : State) (f : Word) : (s.setCond f).cond = f := rfl
@[simp] theorem setCond_mem (s : State) (f : Word) : (s.setCond f).mem = s.mem := rfl
@[simp] theorem setCond_run (s : State) (f : Word) : (s.setCond f).run = s.run := rfl
@[simp] theorem setCond_fault (s : State) (f : Word) : (s.setCond f).fault = s.fault := rfl
@[simp] theorem setCond_console (s : State) (f : Word) : (s.setCond f).console = s.console := rfl

/-! ## setCell -/

@[simp] theorem setCell_regs (s : State) (a v : Word) : (s.setCell a v).regs = s.regs := rfl
@[simp] theorem setCell_pc (s : State) (a v : Word) : (s.setCell a v).pc = s.pc := rfl
@[simp] theorem setCell_cond (s : State) (a v : Word) : (s.setCell a v).cond = s.cond := rfl
@[simp] theorem setCell_mem (s : State) (a v : Word) : (s.setCell a v).mem = s.mem.write a.toNat v := rfl
@[simp] theorem setCell_run (s : State) (a v : Word) : (s.setCell a v).run = s.run := rfl
@[simp] theorem setCell_fault (s : State) (a v : Word) : (s.setCell a v).fault = s.fault := rfl
@[simp] theorem setCell_console (s : State) (a v : Word) : (s.setCell a v).console = s.console := rfl

/-! ## stop -/

@[simp] theorem stop_regs (s : State) : (s.stop).regs = s.regs := rfl
@[simp] theorem stop_pc (s : State) : (s.stop).pc = s.pc := rfl
@[simp] theorem stop_cond (s : State) : (s.stop).cond = s.cond := rfl
@[simp] theorem stop_mem (s : State) : (s.stop).mem = s.mem := rfl
@[simp] theorem stop_run (s : State) : (s.stop).run = false := rfl
@[simp] theorem stop_fault (s : State) : (s.stop).fault = s.fault := rfl
@[simp] theorem stop_console (s : State) : (s.stop).console = s.console := rfl

/-! ## setConsole -/

@[simp] theorem setConsole_regs (s : State) (c : Console) : (s.setConsole c).regs = s.regs := rfl
@[simp] theorem setConsole_pc (s : State) (c : Console) : (s.setConsole c).pc = s.pc := rfl
@[simp] theorem setConsole_cond (s : State) (c : Console) : (s.setConsole c).cond = s.cond := rfl
@[simp] theorem setConsole_mem (s : State) (c : Console) : (s.setConsole c).mem = s.mem := rfl
@[simp] theorem setConsole_run (s : State) (c : Console) : (s.setConsole c).run = s.run := rfl
@[simp] theorem setConsole_fault (s : State) (c : Console) : (s.setConsole c).fault = s.fault := rfl
@[simp] theorem setConsole_console (s : State) (c : Console) : (s.setConsole c).console = c := rfl

/-! ## raiseFatal -/

@[simp] theorem raiseFatal_regs (s : State) (cause : FatalCause) (info : Word) : (s.raiseFatal cause info).regs = s.regs := rfl
@[simp] theorem raiseFatal_pc (s : State) (cause : FatalCause) (info : Word) : (s.raiseFatal cause info).pc = s.pc := rfl
@[simp] theorem raiseFatal_cond (s : State) (cause : FatalCause) (info : Word) : (s.raiseFatal cause info).cond = s.cond := rfl
@[simp] theorem raiseFatal_mem (s : State) (cause : FatalCause) (info : Word) : (s.raiseFatal cause info).mem = s.mem := rfl
@[simp] theorem raiseFatal_run (s : State) (cause : FatalCause) (info : Word) : (s.raiseFatal cause info).run = s.run := rfl
@[simp] theorem raiseFatal_fault (s : State) (cause : FatalCause) (info : Word) : (s.raiseFatal cause info).fault = some ⟨cause, info⟩ := rfl
@[simp] theorem raiseFatal_console (s : State) (cause : FatalCause) (info : Word) : (s.raiseFatal cause info).console = s.console := rfl

/-! ## Registers -/

/-- A register read after a register write (`10_state.md` R10: the cells do not alias). -/
theorem reg_setReg (s : State) (i j : Reg) (v : Word) : (s.setReg i v).reg j = if i = j then v else s.reg j := by
  simp [reg, setReg, Vector.getElem_set, Fin.ext_iff]

@[simp] theorem reg_setReg_self (s : State) (i : Reg) (v : Word) : (s.setReg i v).reg i = v := by
  simp [reg_setReg]

theorem reg_setReg_ne (s : State) {i j : Reg} (v : Word) (h : j ≠ i) : (s.setReg i v).reg j = s.reg j := by
  simp [reg_setReg, Ne.symm h]

@[simp] theorem reg_setPc (s : State) (t : Word) (j : Reg) : (s.setPc t).reg j = s.reg j := rfl
@[simp] theorem reg_setCond (s : State) (f : Word) (j : Reg) : (s.setCond f).reg j = s.reg j := rfl
@[simp] theorem reg_setCell (s : State) (a v : Word) (j : Reg) : (s.setCell a v).reg j = s.reg j := rfl
@[simp] theorem reg_stop (s : State) (j : Reg) : (s.stop).reg j = s.reg j := rfl
@[simp] theorem reg_setConsole (s : State) (c : Console) (j : Reg) : (s.setConsole c).reg j = s.reg j := rfl
@[simp] theorem reg_raiseFatal (s : State) (cause : FatalCause) (info : Word) (j : Reg) : (s.raiseFatal cause info).reg j = s.reg j := rfl

/-! ## Cells -/

@[simp] theorem cell_setReg (s : State) (i : Reg) (v : Word) (a : Word) : (s.setReg i v).cell a = s.cell a := rfl
@[simp] theorem cell_setPc (s : State) (t : Word) (a : Word) : (s.setPc t).cell a = s.cell a := rfl
@[simp] theorem cell_setCond (s : State) (f : Word) (a : Word) : (s.setCond f).cell a = s.cell a := rfl
@[simp] theorem cell_stop (s : State) (a : Word) : (s.stop).cell a = s.cell a := rfl
@[simp] theorem cell_setConsole (s : State) (c : Console) (a : Word) : (s.setConsole c).cell a = s.cell a := rfl
@[simp] theorem cell_raiseFatal (s : State) (cause : FatalCause) (info : Word) (a : Word) : (s.raiseFatal cause info).cell a = s.cell a := rfl

end Sys2Proof.Machine.State
end

