-- ==== Sys2Proof/Laws/Memory.lean ====
section
/-! SUPPORT. The laws of memory: a read after a write, and the canonical form that every write keeps. -/

namespace Sys2Proof.Machine

namespace Memory

theorem read_insert (m : Memory) (a b : Nat) (v : Word) (h : ∀ c ∈ m, c.1 ≠ a) :
    (m.insert a v).read b = if a = b then v else m.read b := by
  induction m with
  | nil => simp [insert, read]
  | cons c rest ih =>
    have hc : c.1 ≠ a := h c (by simp)
    have ih := ih (fun d hd => h d (by simp [hd]))
    simp only [insert]
    split
    · simp [read]
    · simp only [read, ih]
      grind

theorem read_erase (m : Memory) (a b : Nat) :
    (m.erase a).read b = if a = b then Config.unlistedCell else m.read b := by
  induction m with
  | nil => simp [erase, read]
  | cons c rest ih =>
    simp only [erase, List.filter_cons] at ih ⊢
    split
    · simp only [read, ih]
      grind
    · simp only [read, ih]
      grind

theorem mem_erase_ne (m : Memory) (a : Nat) : ∀ c ∈ m.erase a, c.1 ≠ a := by
  intro c hc
  simpa using (List.mem_filter.mp hc).2

/-- A read after a write, of any list: the word written at its address, the old one elsewhere. -/
theorem read_write (m : Memory) (a b : Nat) (v : Word) :
    (m.write a v).read b = if a = b then v else m.read b := by
  simp only [write]
  split
  · rename_i h
    rw [read_erase, h]
  · rw [read_insert _ _ _ _ (mem_erase_ne m a), read_erase]
    split <;> simp_all

theorem mem_insert (m : Memory) (a : Nat) (v : Word) (c : Nat × Word) :
    c ∈ m.insert a v ↔ c = (a, v) ∨ c ∈ m := by
  induction m with
  | nil => simp [insert]
  | cons d rest ih =>
    simp only [insert]
    split
    · simp
    · simp only [List.mem_cons, ih]
      tauto

theorem pairwise_insert (m : Memory) (a : Nat) (v : Word) (h : m.Pairwise (fun c d => c.1 < d.1))
    (hne : ∀ c ∈ m, c.1 ≠ a) : (m.insert a v).Pairwise (fun c d => c.1 < d.1) := by
  induction m with
  | nil => simp [insert]
  | cons d rest ih =>
    obtain ⟨hd, hr⟩ := List.pairwise_cons.mp h
    simp only [insert]
    split
    · rename_i hlt
      refine List.pairwise_cons.mpr ⟨fun c hc => ?_, h⟩
      rcases List.mem_cons.mp hc with rfl | hc
      · exact hlt
      · exact lt_trans hlt (hd c hc)
    · rename_i hlt
      refine List.pairwise_cons.mpr ⟨fun c hc => ?_, ih hr (fun c hc => hne c (by simp [hc]))⟩
      rcases (mem_insert rest a v c).mp hc with rfl | hc
      · have := hne d (by simp)
        simp only at *
        omega
      · exact hd c hc

/-- Every write inside the address space keeps the canonical form. -/
theorem wf_write (m : Memory) (a : Nat) (v : Word) (h : m.wf) (ha : a < Config.memWords) : (m.write a v).wf := by
  obtain ⟨hp, hm⟩ := h
  have hpe : (m.erase a).Pairwise (fun c d => c.1 < d.1) := hp.filter _
  have hme : ∀ c ∈ m.erase a, c.1 < Config.memWords ∧ c.2 ≠ Config.unlistedCell :=
    fun c hc => hm c (List.mem_filter.mp hc).1
  simp only [write]
  split
  · exact ⟨hpe, hme⟩
  · rename_i hv
    refine ⟨pairwise_insert _ _ _ hpe (mem_erase_ne m a), fun c hc => ?_⟩
    rcases (mem_insert _ _ _ c).mp hc with rfl | hc
    · exact ⟨ha, hv⟩
    · exact hme c hc

/-- The memory after reset is in the canonical form. -/
theorem wf_reset : State.reset.mem.wf := by
  simp [State.reset, wf]

end Memory

namespace State

/-- A cell read after a cell write. -/
theorem cell_setCell (s : State) (a b v : Word) : (s.setCell a v).cell b = if a = b then v else s.cell b := by
  simp only [cell, setCell_mem, Memory.read_write, BitVec.toNat_inj]

@[simp] theorem cell_setCell_self (s : State) (a v : Word) : (s.setCell a v).cell a = v := by
  simp [cell_setCell]

theorem cell_setCell_ne (s : State) {a b : Word} (v : Word) (h : b ≠ a) : (s.setCell a v).cell b = s.cell b := by
  simp [cell_setCell, Ne.symm h]

/-- A cell write keeps the canonical form: a 16-bit address is inside the address space. -/
theorem wf_setCell (s : State) (a v : Word) (h : s.mem.wf) : (s.setCell a v).mem.wf :=
  Memory.wf_write _ _ _ h a.isLt

end State

end Sys2Proof.Machine
end

