-- ==== Sys2Proof/Laws/Console.lean ====
section
/-! SUPPORT. What the console primitives and the reads through `memRead` can do, said once (`20_memory.md` R36 to R45). -/

namespace Sys2Proof.Machine

namespace Console

@[simp] theorem write_calls (c : Console) (l : List Word) : (c.write l).calls = c.calls ++ l.map .writeChar := rfl
@[simp] theorem write_schedule (c : Console) (l : List Word) : (c.write l).schedule = c.schedule := rfl
@[simp] theorem write_codes (c : Console) (l : List Word) : (c.write l).codes = c.codes := rfl
@[simp] theorem write_silent (c : Console) (l : List Word) : (c.write l).silent = c.silent := rfl
@[simp] theorem write_drawn (c : Console) (l : List Word) : (c.write l).drawn = c.drawn := rfl
@[simp] theorem write_answers (c : Console) (l : List Word) : (c.write l).answers = c.answers := rfl
@[simp] theorem write_nextCode (c : Console) (l : List Word) : (c.write l).nextCode = c.nextCode := rfl

@[simp] theorem askKey_codes (c : Console) : c.askKey.codes = c.codes := rfl
@[simp] theorem askKey_silent (c : Console) : c.askKey.silent = c.silent := rfl
@[simp] theorem askKey_schedule (c : Console) : c.askKey.schedule = c.schedule.tail := rfl
@[simp] theorem askKey_calls (c : Console) : c.askKey.calls = c.calls ++ [.keyAvailable c.keyAnswer] := rfl
@[simp] theorem askKey_answers (c : Console) : c.askKey.answers = c.answers := rfl

@[simp] theorem takeCode_codes (c : Console) (k : Word → ConsoleCall) : (c.takeCode k).codes = c.codes.tail := rfl
@[simp] theorem takeCode_silent (c : Console) (k : Word → ConsoleCall) : (c.takeCode k).silent = c.silent := rfl
@[simp] theorem takeCode_schedule (c : Console) (k : Word → ConsoleCall) : (c.takeCode k).schedule = c.schedule := rfl
@[simp] theorem takeCode_calls (c : Console) (k : Word → ConsoleCall) :
    (c.takeCode k).calls = c.calls ++ [k c.nextCode] := rfl

/-- A write of no character changes nothing. -/
@[simp] theorem write_nil (c : Console) : c.write [] = c := by simp [write]

/-- Two writes are one write of both lists. -/
theorem write_write (c : Console) (l m : List Word) : (c.write l).write m = c.write (l ++ m) := by
  simp [write]

/-- A write of a list is the write of its characters, one after the other (R45). -/
theorem write_eq_foldl (c : Console) (l : List Word) : c.write l = l.foldl (fun d k => d.write [k]) c := by
  induction l generalizing c with
  | nil => simp
  | cons k l ih => rw [List.foldl_cons, ← ih, write_write, List.singleton_append]

/-- The stream's next character is the next that a read returns. -/
theorem nextCode_cons (c : Console) {k : Word} {rest : List Word} (h : c.codes = k :: rest) : c.nextCode = k := by
  simp [nextCode, h]

/-- The schedule's next answer is the next that KeyAvailable gives, when a character can be pending. -/
theorem keyAnswer_cons (c : Console) {b : Bool} {rest : List Bool} (ha : c.answers = true)
    (h : c.schedule = b :: rest) : c.keyAnswer = b := by
  simp [keyAnswer, ha, h]

/-- KeyAvailable answers true only when a read would return, so the poll's read does not block (R45). -/
theorem answers_of_keyAnswer (c : Console) (h : c.keyAnswer = true) : c.askKey.answers = true := by
  simp only [keyAnswer, Bool.and_eq_true] at h
  simpa using h.1

end Console

namespace State

@[simp] theorem writeChars_regs (s : State) (l : List Word) : (s.writeChars l).regs = s.regs := rfl
@[simp] theorem writeChars_pc (s : State) (l : List Word) : (s.writeChars l).pc = s.pc := rfl
@[simp] theorem writeChars_cond (s : State) (l : List Word) : (s.writeChars l).cond = s.cond := rfl
@[simp] theorem writeChars_mem (s : State) (l : List Word) : (s.writeChars l).mem = s.mem := rfl
@[simp] theorem writeChars_run (s : State) (l : List Word) : (s.writeChars l).run = s.run := rfl
@[simp] theorem writeChars_fault (s : State) (l : List Word) : (s.writeChars l).fault = s.fault := rfl
@[simp] theorem writeChars_console (s : State) (l : List Word) : (s.writeChars l).console = s.console.write l := rfl
@[simp] theorem writeChars_reg (s : State) (l : List Word) (r : Reg) : (s.writeChars l).reg r = s.reg r := rfl
@[simp] theorem writeChars_cell (s : State) (l : List Word) (a : Word) : (s.writeChars l).cell a = s.cell a := rfl

/-- What ReadChar can do: it takes the next character, or never returns. -/
theorem readChar_eq (s : State) : s.readChar =
    if s.console.answers then some (s.console.nextCode, s.setConsole (s.console.takeCode .readChar)) else none := rfl

/-- What ReadCharEcho can do: it takes the next character, or never returns. -/
theorem readCharEcho_eq (s : State) : s.readCharEcho =
    if s.console.answers then some (s.console.nextCode, s.setConsole (s.console.takeCode .readCharEcho)) else none := rfl

/-! ## The poll and the reads -/

@[simp] theorem pollKeyboard_regs (s : State) : s.pollKeyboard.regs = s.regs := by unfold pollKeyboard; split <;> rfl
@[simp] theorem pollKeyboard_pc (s : State) : s.pollKeyboard.pc = s.pc := by unfold pollKeyboard; split <;> rfl
@[simp] theorem pollKeyboard_cond (s : State) : s.pollKeyboard.cond = s.cond := by unfold pollKeyboard; split <;> rfl
@[simp] theorem pollKeyboard_run (s : State) : s.pollKeyboard.run = s.run := by unfold pollKeyboard; split <;> rfl
@[simp] theorem pollKeyboard_fault (s : State) : s.pollKeyboard.fault = s.fault := by unfold pollKeyboard; split <;> rfl

/-- What a poll does when a key is available. -/
theorem pollKeyboard_key (s : State) (h : s.console.keyAnswer = true) : s.pollKeyboard =
    (((s.setConsole s.console.askKey).setCell Config.kbsr Config.kbsrReady).setConsole
      (s.console.askKey.takeCode .readChar)).setCell Config.kbdr s.console.askKey.nextCode := by
  simp [pollKeyboard, h]

/-- What a poll does when no key is available. -/
theorem pollKeyboard_noKey (s : State) (h : s.console.keyAnswer = false) : s.pollKeyboard =
    (s.setConsole s.console.askKey).setCell Config.kbsr 0x0000 := by
  simp [pollKeyboard, h]

/-- A poll changes no cell but those of KBSR and KBDR. -/
theorem pollKeyboard_cell (s : State) {a : Word} (h₁ : a ≠ Config.kbsr) (h₂ : a ≠ Config.kbdr) :
    s.pollKeyboard.cell a = s.cell a := by
  unfold pollKeyboard
  split <;> simp [cell_setCell, Ne.symm h₁, Ne.symm h₂]

/-- A poll keeps the canonical form of memory. -/
theorem wf_pollKeyboard (s : State) (h : s.mem.wf) : s.pollKeyboard.mem.wf := by
  have key : ∀ a v : Word, (s.mem.write a.toNat v).wf := fun a v => Memory.wf_write _ _ _ h a.isLt
  unfold pollKeyboard
  split
  · simp only [setCell_mem, setConsole_mem]
    exact Memory.wf_write _ _ _ (key Config.kbsr _) (BitVec.isLt _)
  · exact key Config.kbsr 0x0000

@[simp] theorem memRead_regs (s : State) (a : Word) : (s.memRead a).2.regs = s.regs := by unfold memRead; split <;> simp
@[simp] theorem memRead_pc (s : State) (a : Word) : (s.memRead a).2.pc = s.pc := by unfold memRead; split <;> simp
@[simp] theorem memRead_cond (s : State) (a : Word) : (s.memRead a).2.cond = s.cond := by unfold memRead; split <;> simp
@[simp] theorem memRead_run (s : State) (a : Word) : (s.memRead a).2.run = s.run := by unfold memRead; split <;> simp
@[simp] theorem memRead_fault (s : State) (a : Word) : (s.memRead a).2.fault = s.fault := by unfold memRead; split <;> simp

@[simp] theorem memRead_reg (s : State) (a : Word) (r : Reg) : (s.memRead a).2.reg r = s.reg r := by
  simp [reg]

/-- What a read through `memRead` can do: at KBSR it polls, elsewhere it returns the cell. -/
theorem memRead_cases (s : State) (a : Word) :
    (a = Config.kbsr ∧ s.memRead a = (s.pollKeyboard.cell Config.kbsr, s.pollKeyboard)) ∨
    (a ≠ Config.kbsr ∧ s.memRead a = (s.cell a, s)) := by
  unfold memRead
  split
  · exact .inl ⟨‹_›, rfl⟩
  · exact .inr ⟨‹_›, rfl⟩

/-- A read changes no cell but those of KBSR and KBDR, and those only when it reads KBSR. -/
theorem memRead_cell (s : State) (a b : Word) (h : a = Config.kbsr → b ≠ Config.kbsr ∧ b ≠ Config.kbdr) :
    (s.memRead a).2.cell b = s.cell b := by
  rcases memRead_cases s a with ⟨ha, he⟩ | ⟨_, he⟩
  · rw [he, pollKeyboard_cell s (h ha).1 (h ha).2]
  · rw [he]

/-- A read keeps the canonical form of memory. -/
theorem wf_memRead (s : State) (a : Word) (h : s.mem.wf) : (s.memRead a).2.mem.wf := by
  rcases memRead_cases s a with ⟨_, he⟩ | ⟨_, he⟩
  · rw [he]; exact wf_pollKeyboard s h
  · rw [he]; exact h

/-- PUTS and PUTSP read their cells raw (`20_memory.md` R40, D6). -/
@[simp] theorem stringCell_eq (s : State) (a : Word) : s.stringCell a = (s.cell a, s) := rfl

/-- The fetch reads raw and increments `pc` (`40_execution_cycle.md` R71, D5). -/
@[simp] theorem fetch_eq (s : State) : s.fetch = (s.cell s.pc, s.setPc (s.pc + 1)) := rfl

end State

end Sys2Proof.Machine
end

