-- ==== Sys2Proof/Laws/Flags.lean ====
section
/-! SUPPORT. What `SetCC`, the destination write, the link and the sign extension do, said once. -/

namespace Sys2Proof.Machine

/-- The computed flag is the flag of the value (`10_state.md` R14). -/
theorem flagsOf_condOf (v : Word) : FlagsOf v (condOf v) := by
  have hm : v.getLsbD 15 = decide (0x8000 ≤ v.toNat) := by
    rw [← BitVec.msb_eq_getLsbD_last v (w := 16), BitVec.msb_eq_decide]
  have hz : v = 0 ↔ v.toNat = 0 := by
    rw [← BitVec.toNat_inj]
    rfl
  unfold FlagsOf condOf
  grind

/-- The computed flag is one of the three. -/
theorem condOf_legal (v : Word) : condOf v = Config.flPos ∨ condOf v = Config.flZro ∨ condOf v = Config.flNeg := by
  unfold condOf
  split
  · simp
  · split <;> simp

namespace State

@[simp] theorem setCC_regs (s : State) (i : Reg) : (s.setCC i).regs = s.regs := rfl
@[simp] theorem setCC_pc (s : State) (i : Reg) : (s.setCC i).pc = s.pc := rfl
@[simp] theorem setCC_mem (s : State) (i : Reg) : (s.setCC i).mem = s.mem := rfl
@[simp] theorem setCC_run (s : State) (i : Reg) : (s.setCC i).run = s.run := rfl
@[simp] theorem setCC_fault (s : State) (i : Reg) : (s.setCC i).fault = s.fault := rfl
@[simp] theorem setCC_console (s : State) (i : Reg) : (s.setCC i).console = s.console := rfl
@[simp] theorem setCC_cond (s : State) (i : Reg) : (s.setCC i).cond = condOf (s.reg i) := rfl

@[simp] theorem writeDst_pc (s : State) (i : Reg) (v : Word) : (s.writeDst i v).pc = s.pc := rfl
@[simp] theorem writeDst_mem (s : State) (i : Reg) (v : Word) : (s.writeDst i v).mem = s.mem := rfl
@[simp] theorem writeDst_run (s : State) (i : Reg) (v : Word) : (s.writeDst i v).run = s.run := rfl
@[simp] theorem writeDst_fault (s : State) (i : Reg) (v : Word) : (s.writeDst i v).fault = s.fault := rfl
@[simp] theorem writeDst_console (s : State) (i : Reg) (v : Word) : (s.writeDst i v).console = s.console := rfl
@[simp] theorem writeDst_cell (s : State) (i : Reg) (v a : Word) : (s.writeDst i v).cell a = s.cell a := rfl

@[simp] theorem writeDst_cond (s : State) (i : Reg) (v : Word) : (s.writeDst i v).cond = condOf v := by
  simp [writeDst]

theorem writeDst_reg (s : State) (i j : Reg) (v : Word) : (s.writeDst i v).reg j = if i = j then v else s.reg j :=
  reg_setReg s i j v

@[simp] theorem writeDst_reg_self (s : State) (i : Reg) (v : Word) : (s.writeDst i v).reg i = v :=
  reg_setReg_self s i v

theorem writeDst_keepsRegs (s : State) (i : Reg) (v : Word) : KeepsRegs s (s.writeDst i v) [i] :=
  fun _ h => reg_setReg_ne s v (by simpa using h)

@[simp] theorem link_pc (s : State) : s.link.pc = s.pc := rfl
@[simp] theorem link_cond (s : State) : s.link.cond = s.cond := rfl
@[simp] theorem link_mem (s : State) : s.link.mem = s.mem := rfl
@[simp] theorem link_run (s : State) : s.link.run = s.run := rfl
@[simp] theorem link_fault (s : State) : s.link.fault = s.fault := rfl
@[simp] theorem link_console (s : State) : s.link.console = s.console := rfl
@[simp] theorem link_cell (s : State) (a : Word) : s.link.cell a = s.cell a := rfl
@[simp] theorem link_reg_seven (s : State) : s.link.reg 7 = s.pc := reg_setReg_self s 7 s.pc

/-- The link writes no register but `R7`; OUT, PUTS and PUTSP see their `R0` unaffected (`44_trap.md` R120). -/
theorem link_reg (s : State) {r : Reg} (h : r ≠ 7) : s.link.reg r = s.reg r := reg_setReg_ne s s.pc h

@[simp] theorem link_reg_zero (s : State) : s.link.reg 0 = s.reg 0 := link_reg s (by decide)

end State

/-- The four extended fields are two's-complement extensions (`30_encoding.md` R55). -/
theorem sext_eq_signExtend {n : Nat} (h : 0 < n) (hn : n ≤ 16) (f : BitVec n) : sext f = f.signExtend 16 := by
  apply BitVec.eq_of_getLsbD_eq
  intro k hk
  simp only [sext, signExtend, zext16, BitVec.getLsbD_setWidth, BitVec.getLsbD_signExtend]
  have hm : f.msb = f.getLsbD (n - 1) := BitVec.msb_eq_getLsbD_last f
  have h1 : n - 1 < 16 := by omega
  split
  · rename_i hb
    simp only [BitVec.getLsbD_or, BitVec.getLsbD_setWidth, BitVec.getLsbD_shiftLeft]
    have hb' : f.getLsbD (n - 1) = true := by simpa [h1] using hb
    have hones : (0xFFFF#16).getLsbD (k - n) = true := by
      have : (0xFFFF#16) = BitVec.allOnes 16 := by decide
      rw [this, BitVec.getLsbD_allOnes]
      simp
      omega
    rw [hm, hb', hones]
    by_cases hkn : k < n
    · simp [hkn, hk]
    · simp [hkn, hk]
  · rename_i hb
    have hb' : f.getLsbD (n - 1) = false := by simpa [h1] using hb
    rw [hm, hb']
    by_cases hkn : k < n
    · simp [hkn, hk]
    · simp [hkn, hk, BitVec.getLsbD_of_ge f k (by omega)]

end Sys2Proof.Machine
end

