-- ==== Sys2Proof/Laws/PerInstr.lean ====
section
/-! SUPPORT. Facts for all instructions, one lemma per constructor (LAWS.json "per_instruction"). -/

namespace Sys2Proof.Laws

/-- The bits of a placed field. -/
theorem getLsbD_place {len : Nat} (v : BitVec len) (lo k : Nat) :
    (place v lo).getLsbD k = (decide (k < 16) && !decide (k < lo) && v.getLsbD (k - lo)) := by
  simp only [place, BitVec.getLsbD_shiftLeft, BitVec.getLsbD_setWidth]
  by_cases h : k < 16
  · have : k - lo < 16 := by omega
    simp [h, this]
  · simp [h]

/-- The bits of a placed register index. -/
theorem getLsbD_placeReg (r : Reg) (lo k : Nat) :
    (placeReg r lo).getLsbD k = (decide (k < 16) && !decide (k < lo) && (BitVec.ofFin r : BitVec 3).getLsbD (k - lo)) :=
  getLsbD_place _ lo k

/-- The opcode words, as numbers. -/
theorem placeOp_eq (o : Opcode) : placeOp o = match o with
    | .add => 0x1000 | .and => 0x5000 | .not => 0x9000 | .br => 0x0000 | .jmp => 0xC000 | .jsr => 0x4000
    | .ld => 0x2000 | .ldi => 0xA000 | .ldr => 0x6000 | .lea => 0xE000 | .st => 0x3000 | .sti => 0xB000
    | .str => 0x7000 | .trap => 0xF000 | .rti => 0x8000 | .res => 0xD000 := by
  cases o <;> decide

/-- A word whose masked bits are `v`, shown bit by bit. -/
theorem and_mask_eq {w m v : Word} (h : ∀ k < 16, (w.getLsbD k && m.getLsbD k) = v.getLsbD k) : (w &&& m == v) = true := by
  rw [beq_iff_eq]
  apply BitVec.eq_of_getLsbD_eq
  intro k hk
  rw [BitVec.getLsbD_and, h k hk]

/-- The encoder writes a word of the instruction's own row of the decode table (`30_encoding.md` R60). -/
def EncodeMatchesRow.Statement (i : Instr) : Prop :=
  ∃ row ∈ opcodeTable, row.mnemonic = i.mnemonic ∧ row.accepts (encode i) = true

theorem EncodeMatchesRow.addReg (d a b : Reg) : EncodeMatchesRow.Statement (.addReg d a b) :=
  ⟨opcodeTable[0], by decide, rfl, by
    refine and_mask_eq fun k hk => ?_
    simp only [encode, placeOp_eq, BitVec.getLsbD_or, getLsbD_place, getLsbD_placeReg]
    interval_cases k <;> simp [opcodeTable, aluRows]⟩

theorem EncodeMatchesRow.addImm (d a : Reg) (f : BitVec 5) : EncodeMatchesRow.Statement (.addImm d a f) :=
  ⟨opcodeTable[1], by decide, rfl, by
    refine and_mask_eq fun k hk => ?_
    simp only [encode, placeOp_eq, BitVec.getLsbD_or, getLsbD_place, getLsbD_placeReg]
    interval_cases k <;> simp [opcodeTable, aluRows]⟩

theorem EncodeMatchesRow.andReg (d a b : Reg) : EncodeMatchesRow.Statement (.andReg d a b) :=
  ⟨opcodeTable[2], by decide, rfl, by
    refine and_mask_eq fun k hk => ?_
    simp only [encode, placeOp_eq, BitVec.getLsbD_or, getLsbD_place, getLsbD_placeReg]
    interval_cases k <;> simp [opcodeTable, aluRows]⟩

theorem EncodeMatchesRow.andImm (d a : Reg) (f : BitVec 5) : EncodeMatchesRow.Statement (.andImm d a f) :=
  ⟨opcodeTable[3], by decide, rfl, by
    refine and_mask_eq fun k hk => ?_
    simp only [encode, placeOp_eq, BitVec.getLsbD_or, getLsbD_place, getLsbD_placeReg]
    interval_cases k <;> simp [opcodeTable, aluRows]⟩

theorem EncodeMatchesRow.not (d a : Reg) : EncodeMatchesRow.Statement (.not d a) :=
  ⟨opcodeTable[4], by decide, rfl, by
    refine and_mask_eq fun k hk => ?_
    simp only [encode, placeOp_eq, BitVec.getLsbD_or, getLsbD_place, getLsbD_placeReg]
    interval_cases k <;> simp [opcodeTable, aluRows]⟩

theorem EncodeMatchesRow.br (m : BitVec 3) (f : BitVec 9) : EncodeMatchesRow.Statement (.br m f) :=
  ⟨opcodeTable[5], by decide, rfl, by
    refine and_mask_eq fun k hk => ?_
    simp only [encode, placeOp_eq, BitVec.getLsbD_or, getLsbD_place, getLsbD_placeReg]
    interval_cases k <;> simp [opcodeTable, aluRows, controlRows]⟩

theorem EncodeMatchesRow.jmp (b : Reg) : EncodeMatchesRow.Statement (.jmp b) :=
  ⟨opcodeTable[6], by decide, rfl, by
    refine and_mask_eq fun k hk => ?_
    simp only [encode, placeOp_eq, BitVec.getLsbD_or, getLsbD_place, getLsbD_placeReg]
    interval_cases k <;> simp [opcodeTable, aluRows, controlRows]⟩

theorem EncodeMatchesRow.jsr (f : BitVec 11) : EncodeMatchesRow.Statement (.jsr f) :=
  ⟨opcodeTable[7], by decide, rfl, by
    refine and_mask_eq fun k hk => ?_
    simp only [encode, placeOp_eq, BitVec.getLsbD_or, getLsbD_place, getLsbD_placeReg]
    interval_cases k <;> simp [opcodeTable, aluRows, controlRows]⟩

theorem EncodeMatchesRow.jsrr (b : Reg) : EncodeMatchesRow.Statement (.jsrr b) :=
  ⟨opcodeTable[8], by decide, rfl, by
    refine and_mask_eq fun k hk => ?_
    simp only [encode, placeOp_eq, BitVec.getLsbD_or, getLsbD_place, getLsbD_placeReg]
    interval_cases k <;> simp [opcodeTable, aluRows, controlRows]⟩

theorem EncodeMatchesRow.ld (d : Reg) (f : BitVec 9) : EncodeMatchesRow.Statement (.ld d f) :=
  ⟨opcodeTable[9], by decide, rfl, by
    refine and_mask_eq fun k hk => ?_
    simp only [encode, placeOp_eq, BitVec.getLsbD_or, getLsbD_place, getLsbD_placeReg]
    interval_cases k <;> simp [opcodeTable, aluRows, controlRows, memoryRows]⟩

theorem EncodeMatchesRow.ldi (d : Reg) (f : BitVec 9) : EncodeMatchesRow.Statement (.ldi d f) :=
  ⟨opcodeTable[10], by decide, rfl, by
    refine and_mask_eq fun k hk => ?_
    simp only [encode, placeOp_eq, BitVec.getLsbD_or, getLsbD_place, getLsbD_placeReg]
    interval_cases k <;> simp [opcodeTable, aluRows, controlRows, memoryRows]⟩

theorem EncodeMatchesRow.ldr (d b : Reg) (f : BitVec 6) : EncodeMatchesRow.Statement (.ldr d b f) :=
  ⟨opcodeTable[11], by decide, rfl, by
    refine and_mask_eq fun k hk => ?_
    simp only [encode, placeOp_eq, BitVec.getLsbD_or, getLsbD_place, getLsbD_placeReg]
    interval_cases k <;> simp [opcodeTable, aluRows, controlRows, memoryRows]⟩

theorem EncodeMatchesRow.lea (d : Reg) (f : BitVec 9) : EncodeMatchesRow.Statement (.lea d f) :=
  ⟨opcodeTable[12], by decide, rfl, by
    refine and_mask_eq fun k hk => ?_
    simp only [encode, placeOp_eq, BitVec.getLsbD_or, getLsbD_place, getLsbD_placeReg]
    interval_cases k <;> simp [opcodeTable, aluRows, controlRows, memoryRows]⟩

theorem EncodeMatchesRow.st (d : Reg) (f : BitVec 9) : EncodeMatchesRow.Statement (.st d f) :=
  ⟨opcodeTable[13], by decide, rfl, by
    refine and_mask_eq fun k hk => ?_
    simp only [encode, placeOp_eq, BitVec.getLsbD_or, getLsbD_place, getLsbD_placeReg]
    interval_cases k <;> simp [opcodeTable, aluRows, controlRows, memoryRows]⟩

theorem EncodeMatchesRow.sti (d : Reg) (f : BitVec 9) : EncodeMatchesRow.Statement (.sti d f) :=
  ⟨opcodeTable[14], by decide, rfl, by
    refine and_mask_eq fun k hk => ?_
    simp only [encode, placeOp_eq, BitVec.getLsbD_or, getLsbD_place, getLsbD_placeReg]
    interval_cases k <;> simp [opcodeTable, aluRows, controlRows, memoryRows]⟩

theorem EncodeMatchesRow.str (d b : Reg) (f : BitVec 6) : EncodeMatchesRow.Statement (.str d b f) :=
  ⟨opcodeTable[15], by decide, rfl, by
    refine and_mask_eq fun k hk => ?_
    simp only [encode, placeOp_eq, BitVec.getLsbD_or, getLsbD_place, getLsbD_placeReg]
    interval_cases k <;> simp [opcodeTable, aluRows, controlRows, memoryRows]⟩

theorem EncodeMatchesRow.trapGetc : EncodeMatchesRow.Statement .trapGetc :=
  ⟨opcodeTable[16], by decide, rfl, by
    refine and_mask_eq fun k hk => ?_
    simp only [encode, placeOp_eq, BitVec.getLsbD_or, getLsbD_place, getLsbD_placeReg]
    interval_cases k <;> simp [opcodeTable, aluRows, controlRows, memoryRows, trapRows, Config.vecGetc]⟩

theorem EncodeMatchesRow.trapOut : EncodeMatchesRow.Statement .trapOut :=
  ⟨opcodeTable[17], by decide, rfl, by
    refine and_mask_eq fun k hk => ?_
    simp only [encode, placeOp_eq, BitVec.getLsbD_or, getLsbD_place, getLsbD_placeReg]
    interval_cases k <;> simp [opcodeTable, aluRows, controlRows, memoryRows, trapRows, Config.vecOut]⟩

theorem EncodeMatchesRow.trapPuts : EncodeMatchesRow.Statement .trapPuts :=
  ⟨opcodeTable[18], by decide, rfl, by
    refine and_mask_eq fun k hk => ?_
    simp only [encode, placeOp_eq, BitVec.getLsbD_or, getLsbD_place, getLsbD_placeReg]
    interval_cases k <;> simp [opcodeTable, aluRows, controlRows, memoryRows, trapRows, Config.vecPuts]⟩

theorem EncodeMatchesRow.trapIn : EncodeMatchesRow.Statement .trapIn :=
  ⟨opcodeTable[19], by decide, rfl, by
    refine and_mask_eq fun k hk => ?_
    simp only [encode, placeOp_eq, BitVec.getLsbD_or, getLsbD_place, getLsbD_placeReg]
    interval_cases k <;> simp [opcodeTable, aluRows, controlRows, memoryRows, trapRows, Config.vecIn]⟩

theorem EncodeMatchesRow.trapPutsp : EncodeMatchesRow.Statement .trapPutsp :=
  ⟨opcodeTable[20], by decide, rfl, by
    refine and_mask_eq fun k hk => ?_
    simp only [encode, placeOp_eq, BitVec.getLsbD_or, getLsbD_place, getLsbD_placeReg]
    interval_cases k <;> simp [opcodeTable, aluRows, controlRows, memoryRows, trapRows, Config.vecPutsp]⟩

theorem EncodeMatchesRow.trapHalt : EncodeMatchesRow.Statement .trapHalt :=
  ⟨opcodeTable[21], by decide, rfl, by
    refine and_mask_eq fun k hk => ?_
    simp only [encode, placeOp_eq, BitVec.getLsbD_or, getLsbD_place, getLsbD_placeReg]
    interval_cases k <;> simp [opcodeTable, aluRows, controlRows, memoryRows, trapRows, Config.vecHalt]⟩

theorem EncodeMatchesRow.trapUndefined (v : BitVec 8) : EncodeMatchesRow.Statement (.trapUndefined v) :=
  ⟨opcodeTable[22], by decide, rfl, by
    refine and_mask_eq fun k hk => ?_
    simp only [encode, placeOp_eq, BitVec.getLsbD_or, getLsbD_place, getLsbD_placeReg]
    interval_cases k <;> simp [opcodeTable, aluRows, controlRows, memoryRows, trapRows]⟩

theorem EncodeMatchesRow.rti (f : BitVec 12) : EncodeMatchesRow.Statement (.rti f) :=
  ⟨opcodeTable[23], by decide, rfl, by
    refine and_mask_eq fun k hk => ?_
    simp only [encode, placeOp_eq, BitVec.getLsbD_or, getLsbD_place, getLsbD_placeReg]
    interval_cases k <;> simp [opcodeTable, aluRows, controlRows, memoryRows, trapRows]⟩

theorem EncodeMatchesRow.res (f : BitVec 12) : EncodeMatchesRow.Statement (.res f) :=
  ⟨opcodeTable[24], by decide, rfl, by
    refine and_mask_eq fun k hk => ?_
    simp only [encode, placeOp_eq, BitVec.getLsbD_or, getLsbD_place, getLsbD_placeReg]
    interval_cases k <;> simp [opcodeTable, aluRows, controlRows, memoryRows, trapRows]⟩

end Sys2Proof.Laws
end

