-- ==== Sys2Proof/Laws/Trap.lean ====
section
/-! SUPPORT. What the string walk of PUTS and PUTSP and the blocking reads of GETC and IN can do, said once (`44_trap.md` R121 to R125). -/

namespace Sys2Proof.Machine

/-- The address of the `k`-th cell of a string, by its first cell or by its second. -/
theorem string_address (a : Word) (k : Nat) : a + 1 + BitVec.ofNat 16 k = a + BitVec.ofNat 16 (k + 1) := by
  apply BitVec.eq_of_toNat_eq
  simp
  omega

/-- A walk that ends has only written characters. -/
theorem walkString_some {chars : Word → Option (List Word)} {fuel : Nat} {a : Word} {s t : State}
    (h : walkString chars fuel a s = some t) : ∃ l, t = s.writeChars l := by
  induction fuel generalizing a s with
  | zero => simp [walkString] at h
  | succ fuel ih =>
    simp only [walkString, State.stringCell_eq] at h
    split at h
    · exact ⟨[], by simpa [State.writeChars, State.setConsole] using h.symm⟩
    · rename_i codes _
      obtain ⟨l, rfl⟩ := ih h
      exact ⟨codes ++ l, by simp [State.writeChars, State.setConsole, Console.write_write]⟩

/-- A walk with enough fuel writes the characters of the cells before the first cell that ends the string. -/
theorem walkString_ends {chars : Word → Option (List Word)} (n : Nat) {fuel : Nat} {a : Word} (s : State)
    (hn : n < fuel) (hbefore : ∀ k < n, chars (s.cell (a + BitVec.ofNat 16 k)) ≠ none)
    (hend : chars (s.cell (a + BitVec.ofNat 16 n)) = none) :
    walkString chars fuel a s = some (s.writeChars
      ((List.range n).flatMap (fun k => (chars (s.cell (a + BitVec.ofNat 16 k))).getD []))) := by
  induction n generalizing fuel a s with
  | zero =>
    obtain ⟨fuel, rfl⟩ := Nat.exists_eq_succ_of_ne_zero (by omega : fuel ≠ 0)
    have h0 : chars (s.cell a) = none := by simpa using hend
    simp [walkString, h0, State.writeChars, State.setConsole]
  | succ n ih =>
    obtain ⟨fuel, rfl⟩ := Nat.exists_eq_succ_of_ne_zero (by omega : fuel ≠ 0)
    obtain ⟨codes, hc⟩ := Option.ne_none_iff_exists'.mp (hbefore 0 (by omega))
    have hc' : chars (s.cell a) = some codes := by simpa using hc
    have step := ih (fuel := fuel) (a := a + 1) (s.writeChars codes) (by omega)
      (fun k hk => by rw [State.writeChars_cell, string_address]; exact hbefore (k + 1) (by omega))
      (by rw [State.writeChars_cell, string_address]; exact hend)
    simp only [walkString, State.stringCell_eq, hc', step, State.writeChars_cell, string_address]
    rw [List.range_succ_eq_map, List.flatMap_cons, List.flatMap_map, hc]
    simp [State.writeChars, State.setConsole, Console.write_write]

/-- A walk does not end exactly when none of the cells its fuel reaches ends the string. -/
theorem walkString_none {chars : Word → Option (List Word)} {fuel : Nat} {a : Word} {s : State} :
    walkString chars fuel a s = none ↔ ∀ k < fuel, chars (s.cell (a + BitVec.ofNat 16 k)) ≠ none := by
  constructor
  · intro h k hk hkn
    have hex : ∃ n, chars (s.cell (a + BitVec.ofNat 16 n)) = none := ⟨k, hkn⟩
    classical
    have := walkString_ends (Nat.find hex) s (lt_of_le_of_lt (Nat.find_min' hex hkn) hk)
      (fun j hj => Nat.find_min hex hj) (Nat.find_spec hex)
    simp [this] at h
  · intro h
    induction fuel generalizing a s with
    | zero => rfl
    | succ fuel ih =>
      obtain ⟨codes, hc⟩ := Option.ne_none_iff_exists'.mp (h 0 (by omega))
      have hc' : chars (s.cell a) = some codes := by simpa using hc
      simp only [walkString, State.stringCell_eq, hc']
      exact ih (fun k hk => by rw [State.writeChars_cell, string_address]; exact h (k + 1) (by omega))

/-- What GETC and IN do with what the console gave them. -/
@[simp] theorem storeCode_some (code : Word) (s : State) : storeCode (some (code, s)) = .next (s.writeDst 0 code) := rfl
@[simp] theorem storeCode_none : storeCode none = .fault .consoleReadNeverReturns := rfl

/-- A routine that ends after its string has only written characters. -/
theorem writeString_next {chars : Word → Option (List Word)} {s t : State} (h : writeString chars s = .next t) :
    ∃ l, t = s.writeChars l := by
  unfold writeString at h
  split at h
  · cases h
    exact walkString_some ‹_›
  · cases h

end Sys2Proof.Machine
end

