-- ==== Sys2Proof/Tests/Slice0.lean ====
section
/-! SUPPORT. The model's own tests. Every expected result is a vector of `95_test_vectors.md` (its id in the comment) or the example of the rule named; then the witnesses of the statements' hypotheses. -/

namespace Sys2Proof.Tests

open Sys2Proof.Machine

/-- The next state of one step, if there is one. -/
def after (s : State) : Option State :=
  match step s with
  | .next t => some t
  | .fault _ => none
  | .refused _ => none

/-- The stop of one step, if it stops. -/
def stopOf (s : State) : Option Fault :=
  match step s with
  | .next _ => none
  | .fault f => some f
  | .refused _ => none

/-- The reset state with `w` at `a` and `pc` there. -/
def start (a w : Word) : State := (State.reset.setPc a).setCell a w

/-- One register and COND after one step. -/
def regCond (s : State) (r : Reg) : Option (Word × Word) := (after s).map (fun t => (t.reg r, t.cond))

/-- `R7` and `pc` after one step. -/
def linkPc (s : State) : Option (Word × Word) := (after s).map (fun t => (t.reg 7, t.pc))

/-- `pc` after one step. -/
def pcAfter (s : State) : Option Word := (after s).map (fun t => t.pc)

/-- One cell after one step. -/
def cellAfter (s : State) (a : Word) : Option Word := (after s).map (fun t => t.cell a)

/-- The console calls after one step. -/
def callsAfter (s : State) : Option (List ConsoleCall) := (after s).map (fun t => t.console.calls)

/-- A console whose answers are scripted. -/
def scripted (schedule : List Bool) (codes : List Word) : Console :=
  { schedule := schedule, codes := codes, silent := false, drawn := 0, calls := [] }

/-! ## Well-formedness: the one check, and an ill-formed term -/

theorem test_wellFormed_refuses_routine_vector : (Instr.trapUndefined 0x20).wellFormed = false := by decide
theorem test_wellFormed_accepts_undefined_vector : (Instr.trapUndefined 0x26).wellFormed = true := by decide

/-! ## Decoding: a word per constructor, written out bit by bit from `30_encoding.md` R53 and R52 -/

theorem test_decode_addReg : decode 0b0001_000_001_0_11_111 = .addReg 0 1 7 := by decide
theorem test_decode_addImm : decode 0b0001_001_010_1_11110 = .addImm 1 2 0b11110 := by decide
theorem test_decode_andReg : decode 0b0101_010_011_0_00_100 = .andReg 2 3 4 := by decide
theorem test_decode_andImm : decode 0b0101_001_010_1_10000 = .andImm 1 2 0b10000 := by decide
theorem test_decode_not : decode 0b1001_100_101_000000 = .not 4 5 := by decide
theorem test_decode_br : decode 0b0000_001_111111101 = .br 0b001 0b111111101 := by decide
theorem test_decode_jmp : decode 0b1100_111_011_111111 = .jmp 3 := by decide
theorem test_decode_jsr : decode 0b0100_1_10000000001 = .jsr 0b10000000001 := by decide
theorem test_decode_jsrr : decode 0b0100_0_11_010_111111 = .jsrr 2 := by decide
theorem test_decode_ld : decode 0b0010_001_000001000 = .ld 1 8 := by decide
theorem test_decode_ldi : decode 0b1010_010_100000110 = .ldi 2 0b100000110 := by decide
theorem test_decode_ldr : decode 0b0110_100_010_100001 = .ldr 4 2 0b100001 := by decide
theorem test_decode_lea : decode 0b1110_010_000000111 = .lea 2 7 := by decide
theorem test_decode_st : decode 0b0011_001_111111111 = .st 1 0b111111111 := by decide
theorem test_decode_sti : decode 0b1011_011_000000001 = .sti 3 1 := by decide
theorem test_decode_str : decode 0b0111_101_010_000010 = .str 5 2 2 := by decide
theorem test_decode_trapGetc : decode 0b1111_1111_00100000 = .trapGetc := by decide
theorem test_decode_trapOut : decode 0b1111_0000_00100001 = .trapOut := by decide
theorem test_decode_trapPuts : decode 0b1111_0000_00100010 = .trapPuts := by decide
theorem test_decode_trapIn : decode 0b1111_0000_00100011 = .trapIn := by decide
theorem test_decode_trapPutsp : decode 0b1111_0000_00100100 = .trapPutsp := by decide
theorem test_decode_trapHalt : decode 0b1111_0101_00100101 = .trapHalt := by decide
theorem test_decode_trapUndefined : decode 0b1111_0000_00011111 = .trapUndefined 0x1F := by decide
theorem test_decode_rti : decode 0b1000_111111111111 = .rti 0xFFF := by decide
theorem test_decode_res : decode 0b1101_101010111100 = .res 0xABC := by decide

/-- The encoder writes the assembler's words: A12, A17, R62's RET, J4, L7. -/
theorem test_encode_words :
    [Instr.andReg 2 3 4, .not 4 4, .jmp 7, .jsr 4, .ldr 4 2 1].map encode = [0x54C4, 0x993F, 0xC1C0, 0x4804, 0x6881] := by
  decide

/-- The table OPC is a bijection (R52). -/
theorem test_opc_bijection : (∀ n, Config.opcodeNumber (Config.opc n) = n) ∧ Config.opcTable.toList.Nodup := by decide

theorem test_decodeTableWord : decodeTableWord 16 0xF025 = some .trapHalt ∧ decodeTableWord 8 0x25 = some (.br 0 0x25) ∧
    decodeTableWord 32 0xF025 = none := by decide

/-! ## The rows run as the first instruction after reset -/

theorem test_withFetchWord_runs : ([0x1000, 0x9000, 0x0000, 0x4800, 0xA000, 0xB000, 0xF020, 0xF022, 0xF023, 0xF025, 0xF000,
    0x8000, 0xD000].map (fun w => (after (State.reset.withFetchWord 16 w)).isSome)).all id = true := by decide

/-! ## Arithmetic (section 2.1) -/

/-- A2, A4. -/
theorem test_add_ignores_bits : regCond (((start 0x3000 0x1019).setReg 0 3).setReg 1 7) 0 = some (0x000A, Config.flPos) := by decide
theorem test_add_drops_carry : regCond (((start 0x3000 0x1001).setReg 0 0xFFFF).setReg 1 1) 0 = some (0x0000, Config.flZro) := by decide
/-- A9, A10. -/
theorem test_addImm_minus_16 : regCond ((start 0x3000 0x1030).setReg 0 0x0010) 0 = some (0x0000, Config.flZro) := by decide
theorem test_addImm_overflow : regCond ((start 0x3000 0x1FEF).setReg 7 0x7FF1) 7 = some (0x8000, Config.flNeg) := by decide
/-- A12. -/
theorem test_and : regCond (((start 0x3000 0x54C4).setReg 3 0xF0F0).setReg 4 0xFF00) 2 = some (0xF000, Config.flNeg) := by decide
/-- A16, A13. -/
theorem test_andImm_extends : regCond ((start 0x3000 0x52B0).setReg 2 0x00FF) 1 = some (0x00F0, Config.flPos) := by decide
theorem test_andImm_clears : regCond ((start 0x3000 0x5020).setReg 0 0x1234) 0 = some (0x0000, Config.flZro) := by decide
/-- A18, A20. -/
theorem test_not_same_register : regCond ((start 0x3000 0x9900).setReg 4 0x002A) 4 = some (0xFFD5, Config.flNeg) := by decide
theorem test_not_sign : regCond ((start 0x3000 0x91FF).setReg 7 0x8000) 0 = some (0x7FFF, Config.flPos) := by decide

/-! ## Control (section 2.2) -/

/-- B1, B10. -/
theorem test_br_back : pcAfter ((start 0x3004 0x03FD).setCond Config.flPos) = some 0x3002 := by decide
theorem test_br_wraps : pcAfter (start 0x0000 0x0FFE) = some 0xFFFF := by decide
/-- J2, J3. -/
theorem test_jmp_ignores_bits : pcAfter ((start 0x3000 0xCEFF).setReg 3 0x1234) = some 0x1234 := by decide
theorem test_ret : linkPc ((start 0x3007 0xC1C0).setReg 7 0x3002) = some (0x3002, 0x3002) := by decide
/-- J5, J9. -/
theorem test_jsr_back : linkPc (start 0x3000 0x4C00) = some (0x3001, 0x2C01) := by decide
theorem test_jsr_at_top : linkPc (start 0xFFFF 0x4800) = some (0x0000, 0x0000) := by decide
/-- J10, J11 (D4). -/
theorem test_jsrr : linkPc ((start 0x3010 0x4080).setReg 2 0x4000) = some (0x3011, 0x4000) := by decide
theorem test_jsrr_r7 : linkPc ((start 0x3010 0x41C0).setReg 7 0x5000) = some (0x3011, 0x3011) := by decide

/-! ## Loads, stores, LEA (section 2.3) -/

/-- L2, L3. -/
theorem test_ld_own_word : regCond (start 0x3000 0x27FF) 3 = some (0x27FF, Config.flPos) := by decide
theorem test_ld_zero : regCond ((start 0x3000 0x20FF).setCond Config.flPos) 0 = some (0x0000, Config.flZro) := by decide
/-- L5, L6. -/
theorem test_ldi : regCond (((start 0x3004 0xA406).setCell 0x300B 0x4000).setCell 0x4000 0x8000) 2 = some (0x8000, Config.flNeg) := by decide
theorem test_ldi_self_pointer : regCond ((start 0x3000 0xA001).setCell 0x3002 0x3002) 0 = some (0x3002, Config.flPos) := by decide
/-- L8, L10. -/
theorem test_ldr_same_register : regCond (((start 0x3000 0x6240).setReg 1 0x4000).setCell 0x4000 0xBEEF) 1 = some (0xBEEF, Config.flNeg) := by decide
theorem test_ldr_wraps : regCond (((start 0x3000 0x619F).setReg 6 0xFFFF).setCell 0x001E 0x0009) 0 = some (0x0009, Config.flPos) := by decide
/-- L14, L15. -/
theorem test_lea_sets_flags : regCond (start 0x7F00 0xEAFF) 5 = some (0x8000, Config.flNeg) := by decide
theorem test_lea_wraps : regCond (start 0x0010 0xE100) 0 = some (0xFF11, Config.flNeg) := by decide
/-- L17, L19. -/
theorem test_st : cellAfter ((start 0x3002 0x3207).setReg 1 0x8000) 0x300A = some 0x8000 := by decide
theorem test_st_own_word : cellAfter (start 0x3000 0x39FF) 0x3000 = some 0x0000 := by decide
/-- L21, K5. -/
theorem test_sti_over_pointer : cellAfter (((start 0x3000 0xB601).setReg 3 0x0055).setCell 0x3002 0x3002) 0x3002 = some 0x0055 := by decide
theorem test_sti_kbsr : cellAfter (((start 0x3000 0xB601).setReg 3 0x1234).setCell 0x3002 0xFE00) 0xFE00 = some 0x1234 := by decide
/-- L23, L24. -/
theorem test_str_same_register : cellAfter ((start 0x3000 0x7480).setReg 2 0x4000) 0x4000 = some 0x4000 := by decide
theorem test_str_wraps : cellAfter (((start 0x3000 0x7181).setReg 6 0xFFFF).setReg 0 0x0042) 0x0000 = some 0x0042 := by decide

/-! ## The keyboard (section 2.4) -/

/-- A polling LDI: its pointer is KBSR. -/
def pollStart (c : Console) : State := ((start 0x3000 0xA201).setCell 0x3002 0xFE00).setConsole c

/-- K2. -/
theorem test_poll_key : (after (pollStart (scripted [true] [0x0061]))).map
    (fun t => (t.cell 0xFE00, t.cell 0xFE02, t.reg 1, t.cond, t.console.calls)) =
    some (0x8000, 0x0061, 0x8000, Config.flNeg, [.keyAvailable true, .readChar 0x0061]) := by decide
/-- K3. -/
theorem test_poll_no_key : (after (((pollStart (scripted [false] [0x0061])).setCell 0xFE00 0x8000).setCell 0xFE02 0x0062)).map
    (fun t => (t.cell 0xFE00, t.cell 0xFE02, t.reg 1, t.cond, t.console.calls)) =
    some (0x0000, 0x0062, 0x0000, Config.flZro, [.keyAvailable false]) := by decide
/-- K4: a KBDR read has no side effect. -/
theorem test_kbdr_read : (after ((((start 0x3000 0xA001).setCell 0x3002 0xFE02).setCell 0xFE02 0x0061).setCell 0xFE00 0x8000)).map
    (fun t => (t.reg 0, t.cell 0xFE00, t.console.calls)) = some (0x0061, 0x8000, []) := by decide
/-- D5: a fetch at KBSR reads raw, without a poll. -/
theorem test_fetch_at_kbsr : callsAfter (start 0xFE00 0x0000) = some [] := by decide

/-! ## Traps (section 2.5) -/

/-- T-GETC-3, T-GETC-2. -/
theorem test_getc_whole_code : regCond ((start 0x3000 0xF020).setConsole (scripted [] [0x20AC])) 0 = some (0x20AC, Config.flPos) := by decide
theorem test_getc_nul : regCond (((start 0x3000 0xF020).setCond Config.flPos).setConsole (scripted [] [0x0000])) 0 = some (0x0000, Config.flZro) := by decide
/-- U6: no character ever comes. -/
theorem test_getc_silent : stopOf ((start 0x3000 0xF020).setConsole { scripted [] [] with silent := true }) = some .consoleReadNeverReturns := by decide
/-- T-OUT-2. -/
theorem test_out_whole_register : callsAfter ((start 0x3000 0xF021).setReg 0 0x1248) = some [.writeChar 0x1248] := by decide
/-- T-PUTS-3, T-PUTS-4. -/
theorem test_puts_wraps : callsAfter ((((start 0x3000 0xF022).setReg 0 0xFFFF).setCell 0xFFFF 0x41).setCell 0x0000 0x42) =
    some [.writeChar 0x41, .writeChar 0x42] := by decide
theorem test_puts_whole_cell : callsAfter (((start 0x3000 0xF022).setReg 0 0x4000).setCell 0x4000 0x4100) = some [.writeChar 0x4100] := by decide
/-- T-IN-2, through the routine that takes the prompt as an argument: IN_PROMPT itself is open (D11). -/
theorem test_in_prompt : (match promptedRead [0x3E, 0x20] (State.reset.setConsole (scripted [] [0x0000])) with
    | .next t => some (t.reg 0, t.cond, t.console.calls)
    | .fault _ => none
    | .refused _ => none) = some (0x0000, Config.flZro, [.writeChar 0x3E, .writeChar 0x20, .readCharEcho 0x0000]) := by decide
theorem test_in_code : regCond ((start 0x3000 0xF023).setConsole (scripted [] [0x0079])) 0 = some (0x0079, Config.flPos) := by decide
/-- T-PUTSP-1, T-PUTSP-3. -/
theorem test_putsp_bytes : callsAfter ((((start 0x3000 0xF024).setReg 0 0x4000).setCell 0x4000 0x6548).setCell 0x4001 0x006C) =
    some [.writeChar 0x48, .writeChar 0x65, .writeChar 0x6C] := by decide
theorem test_putsp_low_byte_stops : callsAfter ((((start 0x3000 0xF024).setReg 0 0x4000).setCell 0x4000 0x4100).setCell 0x4001 0x0041) =
    some [] := by decide
/-- T-HALT-1 (S6), T-HALT-2. -/
theorem test_halt : (after (start 0x3000 0xF525)).map (fun t => (t.run, t.fault, t.reg 7, t.pc, t.console.calls)) =
    some (false, none, 0x3001, 0x3001, []) := by decide
theorem test_halted_stops : (after (start 0x3000 0xF025)).bind stopOf = some .halted := by decide
/-- T-UNDEF-2, T-UNDEF-4. -/
theorem test_undefined_vector : (after (start 0x3000 0xF026)).map (fun t => (t.fault, t.run, t.status)) =
    some (some ⟨.undefinedTrapVector, 0x0026⟩, true, .fatal) := by decide
theorem test_undefined_vector_top : (after (start 0x3000 0xF0FF)).map State.fault = some (some ⟨.undefinedTrapVector, 0x00FF⟩) := by decide

/-! ## Illegal opcodes and the cycle (section 2.6) -/

/-- X2. -/
theorem test_rti : (after (start 0x3000 0x8FFF)).map (fun t => (t.fault, t.run, t.pc)) =
    some (some ⟨.illegalOpcodeRTI, 0x8FFF⟩, true, 0x3001) := by decide
/-- X4. -/
theorem test_res : (after (start 0x3000 0xDABC)).map State.fault = some (some ⟨.illegalOpcodeRES, 0xDABC⟩) := by decide
/-- X6. -/
theorem test_fatal_stops : (after (start 0x3000 0x8000)).bind stopOf = some (.fatalDecodeError ⟨.illegalOpcodeRTI, 0x8000⟩) := by decide
/-- X5: zero words are no-operations and `pc` wraps. -/
theorem test_pc_wraps : ((after (State.reset.setPc 0xFFFE)).bind after).map State.pc = some 0x0000 := by decide

/-! ## signExtend (S2) -/

theorem test_signExtend_table : signExtend 0x0010 5 = 0xFFF0 ∧ signExtend 0x001F 6 = 0x001F ∧ signExtend 0x0100 9 = 0xFF00 ∧
    signExtend 0x0400 11 = 0xFC00 ∧ signExtend 0x8123 5 = 0x8123 ∧ signExtend 0x8133 5 = 0xFFF3 := by decide

/-! ## The loader (R172, S6) -/

theorem test_loadImages : let s := (State.reset.loadImages [(0x3000, [0xF025, 0x1234]), (0x3001, [0x5678])]).installEntry 0x3001
    (s.cell 0x3000, s.cell 0x3001, s.cell 0x3002, s.pc) = (0xF025, 0x5678, 0x0000, 0x3001) := by decide

/-! ## Witnesses: concrete states and operands that meet the hypotheses of the statements -/

theorem witness_DecodeOfEncode : (Instr.trapUndefined 0xFF).wellFormed = true ∧ (Instr.ldr 7 0 0x3F).wellFormed = true := by decide

/-- Each mask and match of R60 with a word that meets it, its other bits all 1 (or the vectors at their ends). -/
theorem witness_DecodeReadsFields :
    (0x1FDF &&& 0xF020 = (0x1000 : Word)) ∧ (0x1FFF &&& 0xF020 = (0x1020 : Word)) ∧ (0x5FDF &&& 0xF020 = (0x5000 : Word)) ∧
    (0x5FFF &&& 0xF020 = (0x5020 : Word)) ∧ (0x9FFF &&& 0xF000 = (0x9000 : Word)) ∧ (0x0FFF &&& 0xF000 = (0x0000 : Word)) ∧
    (0xCFFF &&& 0xF000 = (0xC000 : Word)) ∧ (0x4FFF &&& 0xF800 = (0x4800 : Word)) ∧ (0x47FF &&& 0xF800 = (0x4000 : Word)) ∧
    (0x2FFF &&& 0xF000 = (0x2000 : Word)) ∧ (0xAFFF &&& 0xF000 = (0xA000 : Word)) ∧ (0x6FFF &&& 0xF000 = (0x6000 : Word)) ∧
    (0xEFFF &&& 0xF000 = (0xE000 : Word)) ∧ (0x3FFF &&& 0xF000 = (0x3000 : Word)) ∧ (0xBFFF &&& 0xF000 = (0xB000 : Word)) ∧
    (0x7FFF &&& 0xF000 = (0x7000 : Word)) ∧ (0xFF20 &&& 0xF0FF = (0xF020 : Word)) ∧ (0xFF21 &&& 0xF0FF = (0xF021 : Word)) ∧
    (0xFF22 &&& 0xF0FF = (0xF022 : Word)) ∧ (0xFF23 &&& 0xF0FF = (0xF023 : Word)) ∧ (0xFF24 &&& 0xF0FF = (0xF024 : Word)) ∧
    (0xFF25 &&& 0xF0FF = (0xF025 : Word)) ∧ (0xFF1F &&& 0xF000 = (0xF000 : Word) ∧ bitsOf 0xFF1F 7 0 < 0x20) ∧
    (0xFF26 &&& 0xF000 = (0xF000 : Word) ∧ 0x25 < bitsOf 0xFF26 7 0) ∧
    (0x8FFF &&& 0xF000 = (0x8000 : Word)) ∧ (0xDFFF &&& 0xF000 = (0xD000 : Word)) := by decide

theorem witness_UnassignedBits : (0x1019 : Word) &&& assignedBits (decode 0x1001) = 0x1001 &&& assignedBits (decode 0x1001) := by decide

theorem witness_IllegalWords : State.reset.fault = none := by decide

/-- The widths of R55 with a value whose sign bit is set, and one whose sign bit is clear. -/
theorem witness_SignExtend : (∀ n ∈ [5, 6, 9, 11], (BitVec.ofNat 16 (2 ^ (n - 1))).getLsbD (n - 1) = true) ∧
    (∀ n ∈ [5, 6, 9, 11], (0x0000#16).getLsbD (n - 1) = false) := by decide

/-- A state that meets the invariant and steps to a next state: reset, whose first word is a no-operation. -/
theorem witness_StepKeepsInvariant : State.reset.Inv ∧ ∃ t, step State.reset = .next t :=
  ⟨⟨.inr (.inl rfl), Memory.wf_reset, fun _ => rfl⟩, _, rfl⟩

theorem witness_StepRuns : State.reset.run = true ∧ State.reset.fault = none := by decide

theorem witness_TerminalStatuses : (State.reset.stop.run = false ∧ State.reset.stop.fault = none) ∧
    (State.reset.raiseFatal .illegalOpcodeRTI 0x8000).fault = some ⟨.illegalOpcodeRTI, 0x8000⟩ := by decide

/-- A step that leads to HALTED, one that leads to FATAL, and one that does neither. -/
theorem witness_Transitions : (∃ t, step (start 0x3000 0xF025) = .next t ∧ t.status = .halted) ∧
    (∃ t, step (start 0x3000 0x8000) = .next t ∧ t.status = .fatal) ∧
    (∃ t, step State.reset = .next t ∧ t.status = .running) := ⟨⟨_, rfl, rfl⟩, ⟨_, rfl, rfl⟩, ⟨_, rfl, rfl⟩⟩

/-- Instructions with and without a flag register that answer a next state (R15, R11, R17, R18, R90). -/
theorem witness_ExecNext : (∃ t, exec (.ld 1 0) State.reset = .next t) ∧ flagReg (.ld 1 0) = some 1 ∧
    kind (.ld 1 0) ≠ .undefinedTrap ∧ ¬ isIllegal (.ld 1 0) ∧ kind (.ld 1 0) ≠ .transfer ∧
    (∃ t, exec (.jsr 0) State.reset = .next t) ∧ flagReg (.jsr 0) = none ∧ links (.jsr 0) = true ∧
    kind (.jsr 0) = .transfer ∧ (∃ t, exec .trapHalt State.reset = .next t) ∧
    (∃ t, exec (.rti 0) State.reset = .next t) ∧ isIllegal (.rti 0) :=
  ⟨⟨_, rfl⟩, rfl, by decide, by unfold isIllegal; decide, by decide, ⟨_, rfl⟩, rfl, rfl, rfl, ⟨_, rfl⟩, ⟨_, rfl⟩, .inr rfl⟩

theorem witness_OnlyBranchReadsCond : ∀ m off, (Instr.jmp 7) ≠ .br m off := by simp

theorem witness_OnlyKbsrReads : kind (.ldr 1 2 0) ≠ .routine ∧ Config.kbsr ∉ readAddresses (.ldr 1 2 0) State.reset ∧
    ∃ t, exec (.ldr 1 2 0) State.reset = .next t := ⟨by decide, by decide, _, rfl⟩

theorem witness_OrdinaryRead : (0xFDFF#16 ≠ 0xFE00#16) ∧ (0xFE01#16 ≠ 0xFE00#16) ∧ (0xFE02#16 ≠ 0xFE00#16) := by decide

theorem witness_KbsrRead : (scripted [true] [0x61]).keyAnswer = true ∧ (scripted [true] [0x61]).answers = true ∧
    (scripted [false] [0x61]).keyAnswer = false := by decide

theorem witness_RepeatedPolls : (pollStart (scripted [false, false, true] [])).console.schedule = List.replicate (1 + 1) false ++ [true] := by decide

theorem witness_StoredWord : (start 0x3000 0x3800).run = true ∧ (start 0x3000 0x3800).fault = none ∧
    decode ((start 0x3000 0x3800).cell (start 0x3000 0x3800).pc) = .st 4 0 := by decide

theorem witness_Canonical : let m : Memory := [(0, 1), (65535, 2)]; m.wf := by
  refine ⟨by decide, ?_⟩
  simp [Config.memWords, Config.unlistedCell]

/-- An image of two words at the top of memory, and a cell outside it. -/
theorem witness_ImageIsLoaded : [0xF025#16, 0x1234#16].length ≤ 65536 ∧ 1 < [0xF025#16, 0x1234#16].length ∧
    ∀ k < [0xF025#16, 0x1234#16].length, 0x3000#16 ≠ 0xFFFF#16 + BitVec.ofNat 16 k := by decide

/-- A word of each opcode, and the discriminating bits (R60). -/
theorem witness_OpcClauses : Config.opc (opField 0x1000) = .add ∧ (0x1000#16).getLsbD 5 = false ∧
    Config.opc (opField 0x1020) = .add ∧ (0x1020#16).getLsbD 5 = true ∧
    Config.opc (opField 0x5000) = .and ∧ (0x5000#16).getLsbD 5 = false ∧
    Config.opc (opField 0x5020) = .and ∧ (0x5020#16).getLsbD 5 = true ∧
    Config.opc (opField 0x9000) = .not ∧ Config.opc (opField 0x0000) = .br ∧ Config.opc (opField 0xC000) = .jmp ∧
    Config.opc (opField 0x4800) = .jsr ∧ (0x4800#16).getLsbD 11 = true ∧
    Config.opc (opField 0x4000) = .jsr ∧ (0x4000#16).getLsbD 11 = false ∧
    Config.opc (opField 0x2000) = .ld ∧ Config.opc (opField 0xA000) = .ldi ∧ Config.opc (opField 0x6000) = .ldr ∧
    Config.opc (opField 0xE000) = .lea ∧ Config.opc (opField 0x3000) = .st ∧ Config.opc (opField 0xB000) = .sti ∧
    Config.opc (opField 0x7000) = .str ∧ Config.opc (opField 0x8000) = .rti ∧ Config.opc (opField 0xD000) = .res := by decide

theorem witness_TrapClauses : Config.opc (opField 0xF020) = .trap ∧ field 0xF020 0 8 = 0x20 ∧ field 0xF021 0 8 = 0x21 ∧
    field 0xF022 0 8 = 0x22 ∧ field 0xF023 0 8 = 0x23 ∧ field 0xF024 0 8 = 0x24 ∧ field 0xF025 0 8 = 0x25 ∧
    field 0xF01F 0 8 ∉ [0x20, 0x21, 0x22, 0x23, 0x24, 0x25] ∧ field 0xF026 0 8 ∉ [0x20, 0x21, 0x22, 0x23, 0x24, 0x25] := by decide

/-- BR: a mask that selects the flag, one that does not, and a legal COND for the mask 7. -/
theorem witness_Branch : (0b010#3).setWidth 16 &&& State.reset.cond ≠ 0 ∧ (0b101#3).setWidth 16 &&& State.reset.cond = 0 ∧
    State.reset.condLegal := ⟨by decide, by decide, .inr (.inl rfl)⟩

theorem witness_Jsrr : (6 : Reg) ≠ 7 := by decide

/-- The loads and STI: an address that is not KBSR, and a pointer cell that does not hold it. -/
theorem witness_Loads : State.reset.pcRelative (0 : BitVec 9) ≠ 0xFE00#16 ∧
    State.reset.cell (State.reset.pcRelative (0 : BitVec 9)) ≠ 0xFE00#16 ∧ State.reset.baseOffset 1 0x3F ≠ 0xFE00#16 := by decide

/-- GETC and IN: a console that answers, with a character in its stream, and one that never does. -/
theorem witness_BlockingReads : (scripted [] [0x61]).answers = true ∧ (scripted [] [0x61]).codes = 0x61 :: [] ∧
    ({ scripted [] [] with silent := true } : Console).answers = false := by decide

/-- PUTS and PUTSP: the empty string, and a string of two cells. -/
theorem witness_Strings : let s := ((State.reset.setReg 0 0xFFFF).setCell 0xFFFF 0x41).setCell 0x0000 0x42
    State.reset.cell (State.reset.reg 0 + BitVec.ofNat 16 0) = 0 ∧
    (∀ k < 2, s.cell (s.reg 0 + BitVec.ofNat 16 k) ≠ 0 ∧ lowByte (s.cell (s.reg 0 + BitVec.ofNat 16 k)) ≠ 0) ∧
    s.cell (s.reg 0 + BitVec.ofNat 16 2) = 0 ∧ lowByte (s.cell (s.reg 0 + BitVec.ofNat 16 2)) = 0 := by decide

/-- A memory all of whose cells are 1. -/
def fullMemory : Nat → Memory
  | 0 => []
  | n + 1 => (n, 1) :: fullMemory n

theorem fullMemory_read (n a : Nat) (h : a < n) : (fullMemory n).read a = 1 := by
  induction n with
  | zero => omega
  | succ n ih =>
    simp only [fullMemory, Memory.read]
    split
    · rfl
    · exact ih (by omega)

/-- PUTS and PUTSP: a state in which no cell ends a string. -/
theorem witness_EndlessString : let s : State := { State.reset with mem := fullMemory 65536 }
    (∀ a, s.cell a ≠ 0x0000#16) ∧ ∀ a, lowByte (s.cell a) ≠ 0 := by
  have h : ∀ a : Word, (fullMemory 65536).read a.toNat = 1 := fun a => fullMemory_read _ _ a.isLt
  refine ⟨fun a => ?_, fun a => ?_⟩ <;> simp only [State.cell, h] <;> decide

theorem witness_Halt : State.reset.fault = none ∧ (∃ t, exec .trapHalt State.reset = .next t) := ⟨rfl, _, rfl⟩

theorem witness_Routines : kind .trapOut = .routine ∧ flagReg .trapOut = none ∧ (∃ t, exec .trapOut State.reset = .next t) ∧
    Instr.trapOut ≠ .trapHalt := ⟨rfl, rfl, ⟨_, rfl⟩, by decide⟩

theorem witness_UndefinedVector : (Instr.trapUndefined 0x1F).wellFormed = true ∧ (Instr.trapUndefined 0x26).wellFormed = true := by decide

end Sys2Proof.Tests
end

/-! The state family (`10_state.md`): what an instruction can do to the state, the invariant of every step, COND as an
input, and the canonical form of memory. -/

namespace Sys2Proof.Machine

/-! ## What an instruction can do, said once -/

/-- The state after reads of the listed addresses through `memRead`, in order. -/
def State.readAll (s : State) (addresses : List Word) : State :=
  addresses.foldl (fun u a => (u.memRead a).2) s

/-- What one read leaves alone, a list of reads leaves alone. -/
theorem State.readAll_keeps {α : Type} {field : State → α} (hfield : ∀ u a, field (u.memRead a).2 = field u)
    (s : State) (l : List Word) : field (s.readAll l) = field s := by
  induction l generalizing s with
  | nil => rfl
  | cons a l ih => exact (ih _).trans (hfield s a)

@[simp] theorem State.readAll_pc (s : State) (l : List Word) : (s.readAll l).pc = s.pc := readAll_keeps memRead_pc s l
@[simp] theorem State.readAll_cond (s : State) (l : List Word) : (s.readAll l).cond = s.cond := readAll_keeps memRead_cond s l
@[simp] theorem State.readAll_run (s : State) (l : List Word) : (s.readAll l).run = s.run := readAll_keeps memRead_run s l
@[simp] theorem State.readAll_fault (s : State) (l : List Word) : (s.readAll l).fault = s.fault := readAll_keeps memRead_fault s l
@[simp] theorem State.readAll_reg (s : State) (l : List Word) (r : Reg) : (s.readAll l).reg r = s.reg r :=
  readAll_keeps (field := (·.reg r)) (fun u a => memRead_reg u a r) s l

/-- Reads keep the canonical form of memory, though each may poll the keyboard. -/
theorem State.wf_readAll (s : State) (l : List Word) (h : s.mem.wf) : (s.readAll l).mem.wf := by
  induction l generalizing s with
  | nil => exact h
  | cons a l ih => exact ih _ (wf_memRead s a h)

/-- `Effect i s t`: the nine ways in which an instruction `i` that answers a next state leads from `s` to `t`, each
with the instructions that take it. -/
inductive Effect (i : Instr) (s : State) : State → Prop where
  /-- ADD, AND, NOT, LEA and the loads: the reads, then a destination register with its flag. -/
  | writesDst (dst : Reg) (v : Word) (hkind : kind i = .alu ∨ kind i = .load ∨ kind i = .lea)
      (hflag : flagReg i = some dst) (hlinks : links i = false) :
      Effect i s ((s.readAll (readAddresses i s)).writeDst dst v)
  /-- BR and JMP; the target of a BR not taken is `s.pc`. -/
  | jumps (target : Word) (hkind : kind i = .transfer) (hflag : flagReg i = none) (hlinks : links i = false) :
      Effect i s (s.setPc target)
  /-- JSR and JSRR. -/
  | linksAndJumps (target : Word) (hkind : kind i = .transfer) (hflag : flagReg i = none) (hlinks : links i = true) :
      Effect i s (s.link.setPc target)
  /-- ST, STI and STR. -/
  | stores (a v : Word) (haddr : storeAddresses i s = [a]) (hkind : kind i = .store) (hflag : flagReg i = none)
      (hlinks : links i = false) : Effect i s ((s.readAll (readAddresses i s)).setCell a v)
  /-- GETC and IN: the link, the console, then the code in `R0` with its flag. -/
  | takesCode (c : Console) (code : Word) (hi : i = .trapGetc ∨ i = .trapIn) :
      Effect i s ((s.link.setConsole c).writeDst 0 code)
  /-- OUT, PUTS and PUTSP: the link, then characters. -/
  | writesChars (l : List Word) (hi : i = .trapOut ∨ i = .trapPuts ∨ i = .trapPutsp) : Effect i s (s.link.writeChars l)
  /-- HALT. -/
  | halts (message : List Word) (hi : i = .trapHalt) : Effect i s (s.link.writeChars message).stop
  /-- TRAP with an undefined vector. -/
  | raisesAfterLink (vector : BitVec 8) (hi : i = .trapUndefined vector) :
      Effect i s (s.link.raiseFatal .undefinedTrapVector (zext16 vector))
  /-- RTI and RES. -/
  | raises (cause : FatalCause) (hkind : kind i = .illegalOpcode) (hflag : flagReg i = none) (hlinks : links i = false) :
      Effect i s (s.raiseFatal cause (encode i))

/-- GETC, when it answers a next state. -/
theorem effect_of_execTrapGetc {s t : State} (h : execTrapGetc s = .next t) : Effect .trapGetc s t := by
  rw [execTrapGetc, State.readChar_eq] at h
  split at h
  · cases h; exact .takesCode _ _ (.inl rfl)
  · cases h

/-- IN, when it answers a next state; its prompt is part of what it does to the console. -/
theorem effect_of_execTrapIn {s t : State} (h : execTrapIn s = .next t) : Effect .trapIn s t := by
  rw [execTrapIn, promptedRead, State.readCharEcho_eq] at h
  split at h
  · cases h; exact .takesCode _ _ (.inr rfl)
  · cases h

/-- Every instruction that answers a next state does so by one of the nine effects. -/
theorem effect_of_exec {i : Instr} {s t : State} (h : exec i s = .next t) : Effect i s t := by
  cases i with
  | addReg dst _ _ | addImm dst _ _ | andReg dst _ _ | andImm dst _ _ | not dst _ =>
    cases h; exact .writesDst dst _ (.inl rfl) rfl rfl
  | ld dst _ | ldi dst _ | ldr dst _ _ => cases h; exact .writesDst dst _ (.inr (.inl rfl)) rfl rfl
  | lea dst _ => cases h; exact .writesDst dst _ (.inr (.inr rfl)) rfl rfl
  | br _ _ =>
    cases h
    split
    · exact .jumps _ rfl rfl rfl
    · exact .jumps s.pc rfl rfl rfl
  | jmp _ => cases h; exact .jumps _ rfl rfl rfl
  | jsr _ | jsrr _ => cases h; exact .linksAndJumps _ rfl rfl rfl
  | st _ _ | sti _ _ | str _ _ _ => cases h; exact .stores _ _ rfl rfl rfl rfl
  | trapGetc => exact effect_of_execTrapGetc h
  | trapIn => exact effect_of_execTrapIn h
  | trapOut => cases h; exact .writesChars _ (.inl rfl)
  | trapPuts =>
    obtain ⟨l, rfl⟩ := writeString_next h
    exact .writesChars l (.inr (.inl rfl))
  | trapPutsp =>
    obtain ⟨l, rfl⟩ := writeString_next h
    exact .writesChars l (.inr (.inr rfl))
  | trapHalt => cases h; exact .halts _ rfl
  | trapUndefined vector => cases h; exact .raisesAfterLink vector rfl
  | rti _ | res _ => cases h; exact .raises _ rfl rfl rfl

namespace Effect

variable {i : Instr} {s t : State}

/-! ## COND, the registers, the status and memory under the nine effects -/

/-- The flag of the register that sets COND, and COND as it was where none does (`10_state.md` R15). -/
theorem cond (h : Effect i s t) :
    (∀ r, flagReg i = some r → t.cond = condOf (t.reg r)) ∧ (flagReg i = none → t.cond = s.cond) := by
  cases h with
  | writesDst dst v _ hflag _ => simp [hflag]
  | jumps _ _ hflag _ | linksAndJumps _ _ hflag _ | stores _ _ _ _ hflag _ | raises _ _ hflag _ => simp [hflag]
  | takesCode _ _ hi => rcases hi with rfl | rfl <;> simp [flagReg]
  | writesChars _ hi => rcases hi with rfl | rfl | rfl <;> simp [flagReg]
  | halts _ hi | raisesAfterLink _ hi => subst hi; simp [flagReg]

/-- The linking instructions leave `pc` in `R7` (`42_control.md` R90, `44_trap.md` R120). -/
theorem link (h : Effect i s t) (hl : links i = true) : t.reg 7 = s.pc := by
  cases h with
  | writesDst _ _ _ _ hlinks | jumps _ _ _ hlinks | stores _ _ _ _ _ hlinks | raises _ _ _ hlinks =>
    simp [hlinks] at hl
  | takesCode => simp [State.writeDst_reg]
  | linksAndJumps | writesChars | halts | raisesAfterLink => simp

/-- No register changes but the flag-setting destination and the link (`10_state.md` R11). -/
theorem keepsRegs (h : Effect i s t) : KeepsRegs s t (destRegs i) := by
  intro r hr
  cases h with
  | writesDst dst v _ hflag _ =>
    have hne : dst ≠ r := by rintro rfl; simp [destRegs, hflag] at hr
    simp [State.writeDst_reg, hne]
  | jumps | stores | raises => simp
  | linksAndJumps _ _ _ hlinks =>
    have hne : r ≠ 7 := by rintro rfl; simp [destRegs, hlinks] at hr
    simp [State.link_reg s hne]
  | takesCode _ _ hi =>
    have hne : r ≠ 0 ∧ r ≠ 7 := by rcases hi with rfl | rfl <;> simpa [destRegs, flagReg, links] using hr
    simp [State.writeDst_reg, hne.1.symm, State.link_reg s hne.2]
  | writesChars _ hi =>
    have hne : r ≠ 7 := by rcases hi with rfl | rfl | rfl <;> simpa [destRegs, flagReg, links] using hr
    simp [State.link_reg s hne]
  | halts _ hi | raisesAfterLink _ hi =>
    have hne : r ≠ 7 := by subst hi; simpa [destRegs, flagReg, links] using hr
    simp [State.link_reg s hne]

/-- Only HALT clears the running flag (`10_state.md` R18). -/
theorem run (h : Effect i s t) : (i ≠ .trapHalt → t.run = s.run) ∧ (i = .trapHalt → t.run = false) := by
  cases h with
  | writesDst _ _ hkind | jumps _ hkind | linksAndJumps _ hkind | stores _ _ _ hkind | raises _ hkind =>
    exact ⟨fun _ => by simp, by rintro rfl; simp [kind] at hkind⟩
  | takesCode _ _ hi | writesChars _ hi | raisesAfterLink _ hi => exact ⟨fun _ => by simp, by rintro rfl; simp at hi⟩
  | halts _ hi => exact ⟨fun hne => absurd hi hne, fun _ => rfl⟩

/-- Only the illegal rows write the fault record, and each sets it (`60_exceptions.md` R152). -/
theorem fault (h : Effect i s t) : (¬ isIllegal i → t.fault = s.fault) ∧ (isIllegal i → t.fault ≠ none) := by
  cases h with
  | writesDst _ _ hkind => exact ⟨fun _ => by simp, by rcases hkind with hk | hk | hk <;> simp [isIllegal, hk]⟩
  | jumps _ hkind | linksAndJumps _ hkind | stores _ _ _ hkind => simp [isIllegal, hkind]
  | takesCode _ _ hi => rcases hi with rfl | rfl <;> simp [isIllegal, kind]
  | writesChars _ hi => rcases hi with rfl | rfl | rfl <;> simp [isIllegal, kind]
  | halts _ hi | raisesAfterLink _ hi => subst hi; simp [isIllegal, kind]
  | raises _ hkind => simp [isIllegal, hkind]

/-- Memory keeps its canonical form: it changes by reads through `memRead` and by one cell write at most. -/
theorem wf_mem (h : Effect i s t) (hwf : s.mem.wf) : t.mem.wf := by
  cases h with
  | writesDst => exact s.wf_readAll _ hwf
  | stores a v => exact State.wf_setCell _ a v (s.wf_readAll _ hwf)
  | jumps | linksAndJumps | takesCode | writesChars | halts | raisesAfterLink | raises => exact hwf

/-- COND stays one of the three flags (`10_state.md` R23). -/
theorem condLegal (h : Effect i s t) (hlegal : s.condLegal) : t.condLegal := by
  obtain ⟨hset, hkeep⟩ := h.cond
  cases hflag : flagReg i with
  | none => simpa [State.condLegal, hkeep hflag] using hlegal
  | some r => simpa [State.condLegal, hset r hflag] using condOf_legal (t.reg r)

/-- From status RUNNING no instruction both clears `run` and sets the fault record (`10_state.md` R18). -/
theorem oneTerminal (h : Effect i s t) (hrun : s.run = true) (hfault : s.fault = none) (ht : t.fault ≠ none) :
    t.run = true := by
  have hi : i ≠ .trapHalt := by
    rintro rfl
    exact ht ((h.fault.1 (by simp [isIllegal, kind])).trans hfault)
  exact (h.run.1 hi).trans hrun

end Effect

/-! ## A step and its invariant -/

/-- What a step that answers a next state has done: in status RUNNING, the raw fetch, then the decoded instruction
(`40_execution_cycle.md` R70, R71). -/
theorem step_next {s t : State} (h : step s = .next t) :
    s.run = true ∧ s.fault = none ∧ exec (decode (s.cell s.pc)) (s.setPc (s.pc + 1)) = .next t := by
  unfold step State.terminalFault at h
  cases hf : s.fault <;> cases hr : s.run <;> simp [hf, hr] at h
  exact ⟨rfl, rfl, h⟩

/-- Settles O12: the effect of the executed instruction keeps each of the invariant's three parts. -/
theorem everyStepKeepsTheInvariant : Obligations.EveryStepKeepsTheInvariant := by
  intro s t hinv hstep
  obtain ⟨hrun, hfault, hexec⟩ := step_next hstep
  have heff := effect_of_exec hexec
  exact ⟨heff.condLegal hinv.condLegal, heff.wf_mem hinv.memWf, heff.oneTerminal hrun hfault⟩

/-! ## What the instructions write -/

/-- Settles O17: the flag each effect leaves in COND is that of the register that sets it. -/
theorem onlyTheListedInstructionsWriteCond : Obligations.OnlyTheListedInstructionsWriteCond := by
  intro i s t h
  obtain ⟨hset, hkeep⟩ := (effect_of_exec h).cond
  exact ⟨fun r hr => hset r hr ▸ flagsOf_condOf (t.reg r), hkeep⟩

/-- Settles O19; it holds of a TRAP with an undefined vector too, of which the statement does not speak. -/
theorem generalRegistersChangeOnlyWhereNamed : Obligations.GeneralRegistersChangeOnlyWhereNamed :=
  fun _ _ _ _ h => ⟨(effect_of_exec h).keepsRegs, (effect_of_exec h).link⟩

/-- Settles O20: of the nine effects one clears `run` and two set the fault record. -/
theorem runAndFaultChangeOnlyByHaltAndIllegal : Obligations.RunAndFaultChangeOnlyByHaltAndIllegal := by
  intro i s t h
  obtain ⟨hrun, hhalt⟩ := (effect_of_exec h).run
  obtain ⟨hfault, hillegal⟩ := (effect_of_exec h).fault
  exact ⟨hrun, hhalt, hfault, hillegal⟩

/-! ## COND as an input: every operation but BR's test commutes with a change of COND -/

namespace State

theorem link_setCond (s : State) (c : Word) : (s.setCond c).link = s.link.setCond c := rfl

/-- A destination write sets the flag, so it forgets the COND before it. -/
theorem writeDst_setCond (s : State) (c : Word) (i : Reg) (v : Word) : (s.setCond c).writeDst i v = s.writeDst i v := by
  simp [writeDst, setCC, setCond, setReg, reg]

theorem pollKeyboard_setCond (s : State) (c : Word) : (s.setCond c).pollKeyboard = s.pollKeyboard.setCond c := by
  unfold pollKeyboard
  rw [setCond_console]
  split <;> rfl

theorem memRead_setCond (s : State) (c a : Word) :
    (s.setCond c).memRead a = ((s.memRead a).1, (s.memRead a).2.setCond c) := by
  unfold memRead
  split
  · rw [pollKeyboard_setCond, cell_setCond]
  · rfl

theorem indirect_setCond (s : State) (c : Word) (off : BitVec 9) :
    (s.setCond c).indirect off = ((s.indirect off).1, (s.indirect off).2.setCond c) :=
  memRead_setCond s c _

theorem loadFrom_setCond (s : State) (c : Word) (dst : Reg) (a : Word) :
    (s.setCond c).loadFrom dst a = s.loadFrom dst a := by
  simp only [loadFrom, memRead_setCond, writeDst_setCond]

end State

theorem walkString_setCond (chars : Word → Option (List Word)) (fuel : Nat) (a : Word) (s : State) (c : Word) :
    walkString chars fuel a (s.setCond c) = (walkString chars fuel a s).map (·.setCond c) := by
  induction fuel generalizing a s with
  | zero => rfl
  | succ fuel ih =>
    simp only [walkString, State.stringCell_eq, State.cell_setCond]
    split
    · rfl
    · exact ih (a + 1) (s.writeChars _)

theorem writeString_setCond (chars : Word → Option (List Word)) (s : State) (c : Word) :
    writeString chars (s.setCond c) = mapNext (·.setCond c) (writeString chars s) := by
  unfold writeString
  rw [State.reg_setCond, walkString_setCond]
  cases walkString chars Config.memWords (s.reg 0) s <;> rfl

theorem storeCode_setCond (got : Option (Word × State)) (c : Word) :
    storeCode (got.map fun p => (p.1, p.2.setCond c)) = storeCode got := by
  cases got with
  | none => rfl
  | some p => exact congrArg Host.Outcome.next (p.2.writeDst_setCond c 0 p.1)

theorem State.readChar_setCond (s : State) (c : Word) :
    (s.setCond c).readChar = s.readChar.map fun p => (p.1, p.2.setCond c) := by
  unfold readChar
  rw [setCond_console]
  split <;> rfl

theorem State.readCharEcho_setCond (s : State) (c : Word) :
    (s.setCond c).readCharEcho = s.readCharEcho.map fun p => (p.1, p.2.setCond c) := by
  unfold readCharEcho
  rw [setCond_console]
  split <;> rfl

theorem execTrapGetc_setCond (s : State) (c : Word) : execTrapGetc (s.setCond c) = execTrapGetc s := by
  unfold execTrapGetc
  rw [State.link_setCond, State.readChar_setCond, storeCode_setCond]

theorem execTrapIn_setCond (s : State) (c : Word) : execTrapIn (s.setCond c) = execTrapIn s :=
  (congrArg storeCode (State.readCharEcho_setCond (s.link.writeChars Config.inPrompt) c)).trans (storeCode_setCond _ c)

/-- An instruction that sets COND answers the same whatever COND was. -/
theorem exec_setCond_of_flagReg {i : Instr} {r : Reg} (hflag : flagReg i = some r) (s : State) (c : Word) :
    exec i (s.setCond c) = exec i s := by
  cases i with
  | addReg _ _ _ | addImm _ _ _ | andReg _ _ _ | andImm _ _ _ | not _ _ | lea _ _ =>
    exact congrArg Host.Outcome.next (s.writeDst_setCond c _ _)
  | ld _ _ | ldr _ _ _ => exact congrArg Host.Outcome.next (s.loadFrom_setCond c _ _)
  | ldi dst off => simp only [exec, execLdi, State.indirect_setCond, State.loadFrom_setCond]
  | trapGetc => exact execTrapGetc_setCond s c
  | trapIn => exact execTrapIn_setCond s c
  | br _ _ | jmp _ | jsr _ | jsrr _ | st _ _ | sti _ _ | str _ _ _ | trapOut | trapPuts | trapPutsp | trapHalt
  | trapUndefined _ | rti _ | res _ => cases hflag

/-- An instruction other than BR that sets no flag answers the same but for COND, which it keeps. -/
theorem exec_setCond_of_no_flagReg {i : Instr} (hflag : flagReg i = none) (hbr : ∀ m off, i ≠ .br m off) (s : State)
    (c : Word) : exec i (s.setCond c) = mapNext (·.setCond c) (exec i s) := by
  cases i with
  | br m off => exact absurd rfl (hbr m off)
  | sti src off => simp only [exec, execSti, State.indirect_setCond]; rfl
  | trapPuts => exact writeString_setCond putsChars s.link c
  | trapPutsp => exact writeString_setCond putspChars s.link c
  | jmp _ | jsr _ | jsrr _ | st _ _ | str _ _ _ | trapOut | trapHalt | trapUndefined _ | rti _ | res _ => rfl
  | addReg _ _ _ | addImm _ _ _ | andReg _ _ _ | andImm _ _ _ | not _ _ | lea _ _ | ld _ _ | ldi _ _ | ldr _ _ _
  | trapGetc | trapIn => cases hflag

theorem mapNext_id (r : Result) : mapNext (fun t => t) r = r := by cases r <;> rfl

/-- Settles O18, by the two cases of R15: the instructions that set COND and those that do not. -/
theorem onlyBranchReadsCond : Obligations.OnlyBranchReadsCond := by
  intro i s c hbr
  cases hflag : flagReg i with
  | none => simpa using exec_setCond_of_no_flagReg hflag hbr s c
  | some r => simpa [mapNext_id] using exec_setCond_of_flagReg hflag s c

/-! ## The canonical form of memory -/

namespace Memory

/-- A cell that reads as anything but the unlisted value is listed with that value. -/
theorem mem_of_read_ne (m : Memory) {a : Nat} (h : m.read a ≠ Config.unlistedCell) : (a, m.read a) ∈ m := by
  induction m with
  | nil => exact absurd rfl h
  | cons c rest ih =>
    by_cases hc : c.1 = a
    · subst hc; simp [read]
    · have hread : read (c :: rest) a = read rest a := by simp [read, hc]
      rw [hread] at h ⊢
      exact List.mem_cons_of_mem c (ih h)

/-- In a memory with rising addresses a listed cell reads as its entry says. -/
theorem read_of_mem {m : Memory} (hm : m.Pairwise (fun c d => c.1 < d.1)) {a : Nat} {v : Word} (h : (a, v) ∈ m) :
    m.read a = v := by
  induction m with
  | nil => cases h
  | cons c rest ih =>
    obtain ⟨hlt, hrest⟩ := List.pairwise_cons.mp hm
    rcases List.mem_cons.mp h with rfl | h
    · simp [read]
    · have hne : c.1 ≠ a := (hlt _ h).ne
      simpa [read, hne] using ih hrest h

/-- In the canonical form the entries are exactly the cells that read as something else than the unlisted value. -/
theorem mem_iff_read {m : Memory} (hm : m.wf) (a : Nat) (v : Word) :
    (a, v) ∈ m ↔ m.read a = v ∧ v ≠ Config.unlistedCell := by
  obtain ⟨hrising, hentries⟩ := hm
  constructor
  · exact fun h => ⟨read_of_mem hrising h, (hentries _ h).2⟩
  · rintro ⟨rfl, hv⟩
    exact mem_of_read_ne m hv

/-- Outside the address space a canonical memory lists nothing. -/
theorem read_of_ge {m : Memory} (hm : m.wf) {a : Nat} (ha : Config.memWords ≤ a) : m.read a = Config.unlistedCell := by
  by_contra h
  exact absurd (hm.2 _ (mem_of_read_ne m h)).1 (not_lt.mpr ha)

end Memory

/-- Settles O29: the two lists have the same entries, and a list with rising addresses is given by its entries. -/
theorem canonicalMemoriesThatReadAlikeAreEqual : Obligations.CanonicalMemoriesThatReadAlikeAreEqual := by
  intro m n hm hn hread
  have hsame : ∀ a, m.read a = n.read a := fun a => by
    rcases lt_or_ge a 65536 with ha | ha
    · exact hread a ha
    · rw [Memory.read_of_ge hm ha, Memory.read_of_ge hn ha]
  have hmem : ∀ c, c ∈ m ↔ c ∈ n := fun (a, v) => by
    rw [Memory.mem_iff_read hm, Memory.mem_iff_read hn, hsame]
  have hirrefl : Std.Irrefl (fun c d : Nat × Word => c.1 < d.1) := ⟨fun c => lt_irrefl c.1⟩
  have hantisymm : Std.Antisymm (fun c d : Nat × Word => c.1 < d.1) := ⟨fun _ _ hcd hdc => absurd hcd hdc.asymm⟩
  exact hm.1.eq_of_mem_iff hn.1 hmem

/-! ## Reset and SetCC -/

/-- Settles O10, by evaluation of the reset state; memory after reset lists no cell. -/
theorem resetValuesAreThoseOfTheTable : Obligations.ResetValuesAreThoseOfTheTable := by
  have hregs : ∀ r : Reg, State.reset.reg r = 0x0000#16 := fun r => Vector.getElem_replicate r.isLt
  have hcells : ∀ a : Word, State.reset.cell a = 0x0000#16 := fun _ => rfl
  exact ⟨hregs, rfl, rfl, hcells, rfl, rfl, rfl⟩

/-- Settles O11: COND is ZRO, memory is empty and the machine runs. -/
theorem resetMeetsTheInvariant : Obligations.ResetMeetsTheInvariant where
  condLegal := .inr (.inl rfl)
  memWf := Memory.wf_reset
  oneTerminal := fun _ => rfl

/-- Settles O16, by the flag of a value and the frame of a COND write. -/
theorem setCCWritesTheFlagOfTheRegister : Obligations.SetCCWritesTheFlagOfTheRegister :=
  fun s i => ⟨flagsOf_condOf (s.reg i), fun r _ => State.reg_setCond s _ r, rfl, rfl, ⟨rfl, rfl⟩, rfl⟩

end Sys2Proof.Machine

/-! The memory family (`20_memory.md`): the two access paths, the keyboard poll, the memory and console frames of every
instruction, and a store over the next instruction. -/

namespace Sys2Proof.Machine

/-! ## MemWrite, and MemRead away from KBSR -/

/-- Settles O24: MemWrite is the raw cell write at every address. -/
theorem memWriteStoresUnconditionally : Obligations.MemWriteStoresUnconditionally :=
  fun s a v => ⟨s.cell_setCell_self a v, fun _ hb => s.cell_setCell_ne v (by simpa using hb), fun _ _ => rfl, rfl, rfl,
    ⟨rfl, rfl⟩, rfl⟩

/-- Away from KBSR the normal memory-read path is the raw read (`20_memory.md` R37, R39). -/
theorem State.memRead_of_ne (s : State) {a : Word} (h : a ≠ Config.kbsr) : s.memRead a = (s.cell a, s) := if_neg h

/-- Settles O25. -/
theorem ordinaryReadReturnsTheCell : Obligations.OrdinaryReadReturnsTheCell := fun s _ h => s.memRead_of_ne h

/-! ## The poll: what it leaves in KBSR, in KBDR and in the console -/

namespace State

/-- A read of KBSR polls and returns what the poll left in KBSR (`20_memory.md` R38). -/
theorem memRead_kbsr (s : State) : s.memRead 0xFE00#16 = (s.pollKeyboard.cell Config.kbsr, s.pollKeyboard) := if_pos rfl

@[simp] theorem pollKeyboard_reg (s : State) (r : Reg) : s.pollKeyboard.reg r = s.reg r := by simp [reg]

theorem pollKeyboard_kbsr_of_key (s : State) (h : s.console.keyAnswer = true) :
    s.pollKeyboard.cell Config.kbsr = Config.kbsrReady := by
  rw [pollKeyboard_key s h, cell_setCell_ne _ _ (by decide), cell_setConsole, cell_setCell_self]

theorem pollKeyboard_kbdr_of_key (s : State) (h : s.console.keyAnswer = true) :
    s.pollKeyboard.cell Config.kbdr = s.console.askKey.nextCode := by
  rw [pollKeyboard_key s h, cell_setCell_self]

theorem pollKeyboard_console_of_key (s : State) (h : s.console.keyAnswer = true) :
    s.pollKeyboard.console = s.console.askKey.takeCode .readChar := by
  rw [pollKeyboard_key s h]; rfl

theorem pollKeyboard_kbsr_of_noKey (s : State) (h : s.console.keyAnswer = false) :
    s.pollKeyboard.cell Config.kbsr = 0x0000#16 := by
  rw [pollKeyboard_noKey s h]
  exact cell_setCell_self _ _ _

theorem pollKeyboard_console_of_noKey (s : State) (h : s.console.keyAnswer = false) :
    s.pollKeyboard.console = s.console.askKey := by
  rw [pollKeyboard_noKey s h]; rfl

/-- A poll that finds no key has asked once and read no character. -/
theorem pollKeyboard_calls_of_noKey (s : State) (h : s.console.keyAnswer = false) :
    s.pollKeyboard.console.calls = s.console.calls ++ [.keyAvailable false] := by
  simp [pollKeyboard_console_of_noKey s h, h]

/-- A poll that finds no key leaves KBDR alone too. -/
theorem pollKeyboard_keepsMem_of_noKey (s : State) (h : s.console.keyAnswer = false) :
    KeepsMem s s.pollKeyboard [Config.kbsr] := by
  intro a ha
  rw [pollKeyboard_noKey s h, cell_setCell_ne _ _ (by simpa using ha), cell_setConsole]

theorem pollKeyboard_keepsMem (s : State) : KeepsMem s s.pollKeyboard [Config.kbsr, Config.kbdr] := by
  intro a ha
  obtain ⟨hkbsr, hkbdr⟩ : a ≠ Config.kbsr ∧ a ≠ Config.kbdr := by simpa using ha
  exact s.pollKeyboard_cell hkbsr hkbdr

/-- Every poll takes one answer of the schedule. -/
@[simp] theorem pollKeyboard_schedule (s : State) : s.pollKeyboard.console.schedule = s.console.schedule.tail := by
  cases h : s.console.keyAnswer with
  | true => simp [pollKeyboard_console_of_key s h]
  | false => simp [pollKeyboard_console_of_noKey s h]

end State

/-- Settles O26, by the two answers of KeyAvailable. -/
theorem kbsrReadPollsTheConsole : Obligations.KbsrReadPollsTheConsole := by
  intro s
  simp only [State.memRead_kbsr]
  refine ⟨fun hkey => ?_, fun hnone => ?_, fun _ _ => s.console.keyAnswer_cons, s.pollKeyboard_schedule,
    fun r _ => s.pollKeyboard_reg r, s.pollKeyboard_pc, s.pollKeyboard_cond, s.pollKeyboard_run, s.pollKeyboard_fault⟩
  · have hkbsr := s.pollKeyboard_kbsr_of_key hkey
    have hkbdr := s.pollKeyboard_kbdr_of_key hkey
    have hconsole := s.pollKeyboard_console_of_key hkey
    refine ⟨hkbsr, hkbsr, s.pollKeyboard_keepsMem, ?_, fun k rest hcodes => ?_, by rw [hconsole]; rfl⟩
    · calc s.pollKeyboard.console.calls
          = s.console.calls ++ [.keyAvailable true, .readChar s.console.askKey.nextCode] := by simp [hconsole, hkey]
        _ = s.console.calls ++ [.keyAvailable true, .readChar (s.pollKeyboard.cell Config.kbdr)] := by rw [hkbdr]
    · exact hkbdr.trans (s.console.askKey.nextCode_cons hcodes)
  · have hkbsr := s.pollKeyboard_kbsr_of_noKey hnone
    have hconsole := s.pollKeyboard_console_of_noKey hnone
    exact ⟨hkbsr, hkbsr, s.pollKeyboard_keepsMem_of_noKey hnone, s.pollKeyboard_calls_of_noKey hnone,
      by rw [hconsole]; rfl⟩

/-! ## Polls while no key is pending -/

/-- A false answer at the head of the schedule is the next that KeyAvailable gives, whether or not a character can be
pending. -/
theorem Console.keyAnswer_of_false_cons (c : Console) {rest : List Bool} (h : c.schedule = false :: rest) :
    c.keyAnswer = false := by
  simp [keyAnswer, h]

/-- Frames of memory with the same exceptions compose. -/
theorem KeepsMem.trans {s t u : State} {but : List Word} (hst : KeepsMem s t but) (htu : KeepsMem t u but) :
    KeepsMem s u but :=
  fun a ha => (htu a ha).trans (hst a ha)

/-- Settles O27, by induction on the number of polls before the last one: each takes one false answer. -/
theorem repeatedPollsWithoutAKeyReturnZero : Obligations.RepeatedPollsWithoutAKeyReturnZero := by
  intro n
  simp only [State.memRead_kbsr]
  induction n with
  | zero =>
    intro s rest hschedule
    have hnone := s.console.keyAnswer_of_false_cons hschedule
    exact ⟨s.pollKeyboard_kbsr_of_noKey hnone, s.pollKeyboard_calls_of_noKey hnone,
      s.pollKeyboard_keepsMem_of_noKey hnone⟩
  | succ n ih =>
    intro s rest hschedule
    have hnone := s.console.keyAnswer_of_false_cons hschedule
    have htail : s.pollKeyboard.console.schedule = List.replicate (n + 1) false ++ rest := by
      rw [s.pollKeyboard_schedule, hschedule]; rfl
    obtain ⟨hword, hmore, hmem⟩ := ih s.pollKeyboard rest htail
    refine ⟨hword, hmore.trans ?_, (s.pollKeyboard_keepsMem_of_noKey hnone).trans hmem⟩
    rw [s.pollKeyboard_calls_of_noKey hnone, List.append_assoc]; rfl

/-! ## What an instruction can do to memory -/

/-- Reads change no cell but those of KBSR and KBDR, and those only when one of them reads KBSR. -/
theorem State.readAll_cell (s : State) (l : List Word) {a : Word}
    (h : Config.kbsr ∈ l → a ≠ Config.kbsr ∧ a ≠ Config.kbdr) : (s.readAll l).cell a = s.cell a := by
  induction l generalizing s with
  | nil => rfl
  | cons b l ih =>
    exact (ih _ fun hl => h (.tail b hl)).trans (s.memRead_cell b a fun hb => h (hb ▸ .head l))

/-- The cells that reads of the listed addresses may change: KBSR and KBDR when one of them is KBSR. -/
def pollCells (l : List Word) : List Word := if Config.kbsr ∈ l then [Config.kbsr, Config.kbdr] else []

theorem State.readAll_keepsMem (s : State) (l : List Word) : KeepsMem s (s.readAll l) (pollCells l) :=
  fun a ha => s.readAll_cell l fun hl => by simpa [pollCells, hl] using ha

/-- The memory frame of the nine effects (`20_memory.md` R41, R42). -/
theorem Effect.keepsMem {i : Instr} {s t : State} (h : Effect i s t) :
    KeepsMem s t (storeAddresses i s ++ pollCells (readAddresses i s)) := by
  intro a ha
  obtain ⟨hstore, hpoll⟩ : a ∉ storeAddresses i s ∧ a ∉ pollCells (readAddresses i s) := by simpa using ha
  have hreads := s.readAll_keepsMem _ a hpoll
  cases h with
  | writesDst => exact hreads
  | stores b v haddr =>
    have hne : a ≠ b := by simpa [haddr] using hstore
    exact (State.cell_setCell_ne _ v hne).trans hreads
  | jumps | linksAndJumps | takesCode | writesChars | halts | raisesAfterLink | raises => rfl

/-- Settles O21; it holds of a TRAP with an undefined vector too, of which the statement does not speak. -/
theorem memoryChangesOnlyByStoresAndThePoll : Obligations.MemoryChangesOnlyByStoresAndThePoll :=
  fun _ _ _ _ h => (effect_of_exec h).keepsMem

/-! ## The console as an input: every operation but the console's own commutes with a change of console -/

/-- A load away from KBSR commutes with a change of console. -/
theorem State.loadFrom_setConsole (s : State) (c : Console) (dst : Reg) {a : Word} (h : a ≠ Config.kbsr) :
    (s.setConsole c).loadFrom dst a = (s.loadFrom dst a).setConsole c := by
  simp only [loadFrom, memRead_of_ne _ h]; rfl

/-- The pointer read of LDI and STI away from KBSR commutes with a change of console. -/
theorem State.indirect_setConsole (s : State) (c : Console) {off : BitVec 9} (h : s.pcRelative off ≠ Config.kbsr) :
    (s.setConsole c).indirect off = ((s.indirect off).1, (s.indirect off).2.setConsole c) := by
  have hread : s.indirect off = (s.cell (s.pcRelative off), s) := s.memRead_of_ne h
  rw [hread]
  exact (s.setConsole c).memRead_of_ne h

/-- An instruction that is no trap routine and reads no KBSR answers the same but for the console, which it keeps. -/
theorem exec_setConsole {i : Instr} {s : State} (hkind : kind i ≠ .routine) (hread : Config.kbsr ∉ readAddresses i s)
    (c : Console) : exec i (s.setConsole c) = mapNext (·.setConsole c) (exec i s) := by
  cases i with
  | ld dst off =>
    have ha : s.pcRelative off ≠ Config.kbsr := by simpa [readAddresses, eq_comm] using hread
    exact congrArg Host.Outcome.next (s.loadFrom_setConsole c dst ha)
  | ldr dst base off =>
    have ha : s.baseOffset base off ≠ Config.kbsr := by simpa [readAddresses, eq_comm] using hread
    exact congrArg Host.Outcome.next (s.loadFrom_setConsole c dst ha)
  | ldi dst off =>
    obtain ⟨hp, ha⟩ : s.pcRelative off ≠ Config.kbsr ∧ (s.indirect off).1 ≠ Config.kbsr := by
      simpa [readAddresses, eq_comm] using hread
    simp only [exec, execLdi, s.indirect_setConsole c hp, State.loadFrom_setConsole _ c dst ha, mapNext]
  | sti src off =>
    have hp : s.pcRelative off ≠ Config.kbsr := by simpa [readAddresses, eq_comm] using hread
    simp only [exec, execSti, s.indirect_setConsole c hp]; rfl
  | br mask off =>
    exact congrArg Host.Outcome.next 
      (apply_ite (State.setConsole · c) (s.condSelected mask = true) (s.setPc (s.pcRelative off)) s).symm
  | addReg _ _ _ | addImm _ _ _ | andReg _ _ _ | andImm _ _ _ | not _ _ | lea _ _ | jmp _ | jsr _ | jsrr _ | st _ _
  | str _ _ _ | trapUndefined _ | rti _ | res _ => rfl
  | trapGetc | trapOut | trapPuts | trapIn | trapPutsp | trapHalt => exact absurd rfl hkind

/-- Settles O23: the commutation holds of the state's own console, so that one is kept. -/
theorem onlyKbsrReadsAndTrapsReachTheConsole : Obligations.OnlyKbsrReadsAndTrapsReachTheConsole := by
  intro i s c hkind hread
  refine ⟨exec_setConsole hkind hread c, fun t ht => ?_⟩
  have hsame : exec i s = mapNext (·.setConsole s.console) (exec i s) := exec_setConsole hkind hread s.console
  rw [ht] at hsame
  injection hsame with hkept
  calc t.console = (t.setConsole s.console).console := congrArg State.console hkept
    _ = s.console := rfl

/-! ## A store over the next instruction -/

/-- In status RUNNING a step is the raw fetch, then the decoded instruction (`40_execution_cycle.md` R70, R71). -/
theorem step_of_running {s : State} (hrun : s.run = true) (hfault : s.fault = none) :
    step s = exec (decode (s.cell s.pc)) (s.setPc (s.pc + 1)) := by
  simp [step, State.terminalFault, hrun, hfault, State.cycle]

/-- `ST src, +0` stores at the incremented PC. -/
theorem exec_st_zero (s : State) (src : Reg) : exec (.st src 0) s = .next (s.setCell s.pc (s.reg src)) := by
  have haddr : s.pcRelative (0 : BitVec 9) = s.pc := BitVec.add_zero s.pc
  rw [exec, execSt, haddr]; rfl

/-- Settles O28: the store goes to the incremented PC, which is where the next step fetches. -/
theorem storedWordIsTheNextInstruction : Obligations.StoredWordIsTheNextInstruction := by
  intro s src hrun hfault hdecode
  have hfirst : step s = .next ((s.setPc (s.pc + 1)).setCell (s.pc + 1) (s.reg src)) := by
    rw [step_of_running hrun hfault, hdecode]
    exact exec_st_zero _ src
  have hsecond := step_of_running (s := (s.setPc (s.pc + 1)).setCell (s.pc + 1) (s.reg src)) hrun hfault
  simp only [State.setCell_pc, State.setPc_pc, State.cell_setCell_self] at hsecond
  exact ⟨_, _, hfirst, hsecond, add_assoc s.pc 1 1, fun _ _ => rfl, rfl⟩

end Sys2Proof.Machine

/-! The encoding family (`30_encoding.md`): the format of each instruction as a list of fields, what it says of the
decoder and the encoder, the decode table, the illegal words and `signExtend`. -/

namespace Sys2Proof.Machine

/-! ## Fields of a word -/

theorem getLsbD_field (w : Word) (lo len k : Nat) :
    (field w lo len).getLsbD k = (decide (k < len) && w.getLsbD (lo + k)) :=
  BitVec.getLsbD_extractLsb' lo len w k

@[simp] theorem field_or (u v : Word) (lo len : Nat) : field (u ||| v) lo len = field u lo len ||| field v lo len :=
  BitVec.extractLsb'_or

theorem field_and (u v : Word) (lo len : Nat) : field (u &&& v) lo len = field u lo len &&& field v lo len :=
  BitVec.extractLsb'_and

/-- A placed field is read back where it was placed. -/
@[simp] theorem field_place_self {len : Nat} (v : BitVec len) {lo : Nat} (h : lo + len ≤ 16) :
    field (place v lo) lo len = v := by
  apply BitVec.eq_of_getLsbD_eq
  intro k hk
  have hword : lo + k < 16 := by omega
  rw [getLsbD_field, Laws.getLsbD_place]
  simp [hk, hword]

/-- A placed field leaves the bits below and above it 0. -/
@[simp] theorem field_place_disjoint {len' : Nat} (v : BitVec len') {lo lo' len : Nat}
    (h : lo + len ≤ lo' ∨ lo' + len' ≤ lo) : field (place v lo') lo len = 0 := by
  apply BitVec.eq_of_getLsbD_eq
  intro k hk
  rw [getLsbD_field, Laws.getLsbD_place]
  rcases h with h | h
  · have hbelow : lo + k < lo' := by omega
    simp [hbelow]
  · have habove : len' ≤ lo + k - lo' := by omega
    simp [BitVec.getLsbD_of_ge v _ habove]

/-- A field of one bit is that bit. -/
theorem field_one (w : Word) (lo : Nat) : field w lo 1 = BitVec.ofBool (w.getLsbD lo) := by
  apply BitVec.eq_of_getLsbD_eq
  intro k hk
  obtain rfl : k = 0 := by omega
  rw [getLsbD_field]
  simp

/-- A field as the number of `00_scope.md` R6. -/
theorem field_toNat (w : Word) (hi lo : Nat) : (field w lo (hi + 1 - lo)).toNat = bitsOf w hi lo := by
  rw [field, BitVec.extractLsb'_toNat, Nat.shiftRight_eq_div_pow, bitsOf]

theorem regField_val (w : Word) (lo : Nat) : (regField w lo).val = bitsOf w (lo + 2) lo := by
  have hlen : lo + 2 + 1 - lo = 3 := by omega
  rw [← field_toNat, hlen]; rfl

/-! ## Agreement of two words on a mask -/

theorem agree_iff_bits (w v m : Word) :
    w &&& m = v &&& m ↔ ∀ k, m.getLsbD k = true → w.getLsbD k = v.getLsbD k := by
  constructor
  · intro h k hk
    simpa [hk] using congrArg (·.getLsbD k) h
  · intro h
    apply BitVec.eq_of_getLsbD_eq
    intro k _
    cases hk : m.getLsbD k with
    | true => rw [BitVec.getLsbD_and, BitVec.getLsbD_and, h k hk]
    | false => simp only [BitVec.getLsbD_and, hk, Bool.and_false]

/-- Two words agree on two masks together when they agree on each. -/
theorem agree_or_iff (w v m n : Word) :
    w &&& (m ||| n) = v &&& (m ||| n) ↔ w &&& m = v &&& m ∧ w &&& n = v &&& n := by
  simp only [agree_iff_bits, BitVec.getLsbD_or, Bool.or_eq_true, or_imp, forall_and]

/-- Two words agree on the bits of a field when the field has one value in both. -/
theorem agree_field_iff (w v : Word) (lo len : Nat) :
    w &&& place (BitVec.allOnes len) lo = v &&& place (BitVec.allOnes len) lo ↔ field w lo len = field v lo len := by
  rw [agree_iff_bits]
  constructor
  · intro h
    apply BitVec.eq_of_getLsbD_eq
    intro k hk
    rw [getLsbD_field, getLsbD_field]
    by_cases hword : lo + k < 16
    · rw [h (lo + k) (by simp [Laws.getLsbD_place, hword, hk])]
    · rw [BitVec.getLsbD_of_ge w _ (by omega), BitVec.getLsbD_of_ge v _ (by omega)]
  · intro h k hk
    obtain ⟨-, hlo, hlen⟩ : k < 16 ∧ lo ≤ k ∧ k - lo < len := by
      simpa [Laws.getLsbD_place, and_assoc] using hk
    have hbit := congrArg (·.getLsbD (k - lo)) h
    simpa only [getLsbD_field, hlen, decide_true, Bool.true_and, Nat.add_sub_cancel' hlo] using hbit

/-! ## The formats of R53 -/

/-- A field of a format (`30_encoding.md` R53): its width, its low bit and the value it holds. -/
structure FormatField where
  len : Nat
  lo : Nat
  value : BitVec len

namespace FormatField

/-- The word `w` has the field's value at the field's bits. -/
def Holds (p : FormatField) (w : Word) : Prop := field w p.lo p.len = p.value

/-- The bits of the field. -/
def mask (p : FormatField) : Word := place (BitVec.allOnes p.len) p.lo

/-- `ir[15:12]` (R51). -/
def opcode (o : Opcode) : FormatField := ⟨4, 12, Config.opcodeNumber o⟩

/-- A register field (R54). -/
def reg (lo : Nat) (r : Reg) : FormatField := ⟨3, lo, BitVec.ofFin r⟩

/-- A discriminating bit, `immFlag` or `longFlag`. -/
def flag (lo : Nat) (b : Bool) : FormatField := ⟨1, lo, BitVec.ofBool b⟩

/-- A field that is a number: a condition mask, an immediate, an offset, a vector. -/
def bits (lo : Nat) {len : Nat} (v : BitVec len) : FormatField := ⟨len, lo, v⟩

@[simp] theorem opcode_holds (o : Opcode) (w : Word) : (opcode o).Holds w ↔ Config.opc (opField w) = o := by
  have hnumber : ∀ n, Config.opcodeNumber (Config.opc n) = n := Tests.test_opc_bijection.1
  have hopc : Config.opc (Config.opcodeNumber o) = o := by cases o <;> rfl
  exact ⟨fun h => (congrArg Config.opc h).trans hopc, fun h => h ▸ (hnumber _).symm⟩

@[simp] theorem reg_holds (lo : Nat) (r : Reg) (w : Word) : (reg lo r).Holds w ↔ regField w lo = r :=
  ⟨congrArg BitVec.toFin, congrArg BitVec.ofFin⟩

@[simp] theorem flag_holds (lo : Nat) (b : Bool) (w : Word) : (flag lo b).Holds w ↔ w.getLsbD lo = b := by
  rw [Holds, flag, field_one]
  cases w.getLsbD lo <;> cases b <;> simp

@[simp] theorem bits_holds (lo : Nat) {len : Nat} (v : BitVec len) (w : Word) : (bits lo v).Holds w ↔
    field w lo len = v :=
  Iff.rfl

end FormatField

/-- The assigned fields of an instruction's word, by the format tables of R53. -/
def format : Instr → List FormatField
  | .addReg dst src1 src2 => [.opcode .add, .reg 9 dst, .reg 6 src1, .flag 5 false, .reg 0 src2]
  | .addImm dst src1 imm5 => [.opcode .add, .reg 9 dst, .reg 6 src1, .flag 5 true, .bits 0 imm5]
  | .andReg dst src1 src2 => [.opcode .and, .reg 9 dst, .reg 6 src1, .flag 5 false, .reg 0 src2]
  | .andImm dst src1 imm5 => [.opcode .and, .reg 9 dst, .reg 6 src1, .flag 5 true, .bits 0 imm5]
  | .not dst src => [.opcode .not, .reg 9 dst, .reg 6 src]
  | .br condMask pcOffset9 => [.opcode .br, .bits 9 condMask, .bits 0 pcOffset9]
  | .jmp base => [.opcode .jmp, .reg 6 base]
  | .jsr pcOffset11 => [.opcode .jsr, .flag 11 true, .bits 0 pcOffset11]
  | .jsrr base => [.opcode .jsr, .flag 11 false, .reg 6 base]
  | .ld dst pcOffset9 => [.opcode .ld, .reg 9 dst, .bits 0 pcOffset9]
  | .ldi dst pcOffset9 => [.opcode .ldi, .reg 9 dst, .bits 0 pcOffset9]
  | .ldr dst base offset6 => [.opcode .ldr, .reg 9 dst, .reg 6 base, .bits 0 offset6]
  | .lea dst pcOffset9 => [.opcode .lea, .reg 9 dst, .bits 0 pcOffset9]
  | .st src pcOffset9 => [.opcode .st, .reg 9 src, .bits 0 pcOffset9]
  | .sti src pcOffset9 => [.opcode .sti, .reg 9 src, .bits 0 pcOffset9]
  | .str src base offset6 => [.opcode .str, .reg 9 src, .reg 6 base, .bits 0 offset6]
  | .trapGetc => [.opcode .trap, .bits 0 Config.vecGetc]
  | .trapOut => [.opcode .trap, .bits 0 Config.vecOut]
  | .trapPuts => [.opcode .trap, .bits 0 Config.vecPuts]
  | .trapIn => [.opcode .trap, .bits 0 Config.vecIn]
  | .trapPutsp => [.opcode .trap, .bits 0 Config.vecPutsp]
  | .trapHalt => [.opcode .trap, .bits 0 Config.vecHalt]
  | .trapUndefined vector => [.opcode .trap, .bits 0 vector]
  | .rti low => [.opcode .rti, .bits 0 low]
  | .res low => [.opcode .res, .bits 0 low]

/-- `w` is a word of the instruction `i`: every field of its format holds in `w`. -/
def IsWordOf (w : Word) (i : Instr) : Prop := ∀ p ∈ format i, p.Holds w

/-- The assigned bits are those of the fields, all fields together. -/
theorem assignedBits_eq_format (i : Instr) : assignedBits i = (format i).foldr (·.mask ||| ·) 0 := by
  cases i <;> simp only [assignedBits, format, List.foldr, FormatField.mask, FormatField.opcode, FormatField.reg,
    FormatField.flag, FormatField.bits] <;> decide

/-- Two words agree on the bits of several fields when each field has one value in both. -/
theorem agree_fields_iff (w v : Word) (l : List FormatField) :
    w &&& l.foldr (·.mask ||| ·) 0 = v &&& l.foldr (·.mask ||| ·) 0 ↔
      ∀ p ∈ l, field w p.lo p.len = field v p.lo p.len := by
  induction l with
  | nil => simp
  | cons p l ih => rw [List.foldr_cons, agree_or_iff, ih, FormatField.mask, agree_field_iff, List.forall_mem_cons]

theorem agree_assigned_iff (w v : Word) (i : Instr) :
    w &&& assignedBits i = v &&& assignedBits i ↔ ∀ p ∈ format i, field w p.lo p.len = field v p.lo p.len := by
  rw [assignedBits_eq_format, agree_fields_iff]

/-! ## The encoder and the decoder meet the formats -/

/-- The encoder places the fields of a format at disjoint bits, so each is read back from the word: by
`field_place_self` from its own place, and by `field_place_disjoint` it sees 0 in every other. -/
theorem isWordOf_encode (i : Instr) : IsWordOf (encode i) i := by
  have hfields : ∀ p ∈ format i, field (encode i) p.lo p.len = p.value := by
    cases i <;> simp only [format, encode, placeOp, placeReg, FormatField.opcode, FormatField.reg, FormatField.flag,
      FormatField.bits, List.forall_mem_cons] <;> simp
  exact hfields

theorem format_decodeTrap (v : BitVec 8) : format (decodeTrap v) = [.opcode .trap, .bits 0 v] := by
  unfold decodeTrap
  split_ifs <;> simp [format, *]

theorem wellFormed_decodeTrap (v : BitVec 8) : (decodeTrap v).wellFormed = true := by
  unfold decodeTrap
  split_ifs <;> simp [Instr.wellFormed, Instr.vectorIsUndefined, Config.routineVectors, *]

theorem decodeTrap_of_undefined {v : BitVec 8} (h : Instr.vectorIsUndefined v = true) :
    decodeTrap v = .trapUndefined v := by
  simp [Instr.vectorIsUndefined, Config.routineVectors] at h
  simp [decodeTrap, h]

/-- Every word is a word of the instruction the decoder answers. -/
theorem isWordOf_decode (w : Word) : IsWordOf w (decode w) := by
  unfold IsWordOf
  cases hop : Config.opc (opField w) with
  | add | and => cases hmode : w.getLsbD 5 <;> simp [decode, format, hop, hmode, -BitVec.getLsbD_eq_getElem]
  | jsr => cases hmode : w.getLsbD 11 <;> simp [decode, format, hop, hmode, -BitVec.getLsbD_eq_getElem]
  | trap => simp [decode, hop, format_decodeTrap]
  | not | br | jmp | ld | ldi | ldr | lea | st | sti | str | rti | res => simp [decode, hop, format]

theorem wellFormed_decode (w : Word) : (decode w).wellFormed = true := by
  cases hop : Config.opc (opField w) with
  | trap => simpa only [decode, hop] using wellFormed_decodeTrap (field w 0 8)
  | add | and | jsr => simp only [decode, hop]; split <;> rfl
  | not | br | jmp | ld | ldi | ldr | lea | st | sti | str | rti | res => simp only [decode, hop]; rfl

/-- A word of a well-formed instruction decodes to it: the decoder reads no bit outside the format. -/
theorem decode_of_isWordOf {w : Word} {i : Instr} (hwf : i.wellFormed = true) (h : IsWordOf w i) : decode w = i := by
  unfold IsWordOf at h
  cases i with
  | trapGetc | trapOut | trapPuts | trapIn | trapPutsp | trapHalt =>
    obtain ⟨hop, hvec⟩ : Config.opc (opField w) = .trap ∧ field w 0 8 = _ := by simpa [format] using h
    simp only [decode, hop, hvec]; rfl
  | trapUndefined v =>
    obtain ⟨hop, hvec⟩ : Config.opc (opField w) = .trap ∧ field w 0 8 = v := by simpa [format] using h
    simp only [decode, hop, hvec, decodeTrap_of_undefined hwf]
  | addReg _ _ _ | addImm _ _ _ | andReg _ _ _ | andImm _ _ _ | not _ _ | br _ _ | jmp _ | jsr _ | jsrr _ | ld _ _
  | ldi _ _ | ldr _ _ _ | lea _ _ | st _ _ | sti _ _ | str _ _ _ | rti _ | res _ =>
    simp [format] at h
    simp [decode, h]

/-- Settles O1: the encoded word is a word of the instruction. -/
theorem decodeOfEncodeIsTheInstruction : Obligations.DecodeOfEncodeIsTheInstruction :=
  fun i hwf => decode_of_isWordOf hwf (isWordOf_encode i)

/-- Settles O2: both words are words of the decoded instruction, so they agree on each field of its format. -/
theorem encodeOfDecodeKeepsTheAssignedBits : Obligations.EncodeOfDecodeKeepsTheAssignedBits :=
  fun w => (agree_assigned_iff _ _ _).mpr fun p hp =>
    (isWordOf_encode (decode w) p hp).trans (isWordOf_decode w p hp).symm

/-- Settles O6: a word that agrees on the assigned bits is a word of the same instruction. -/
theorem unassignedBitsChangeNothing : Obligations.UnassignedBitsChangeNothing :=
  fun w _ h => decode_of_isWordOf (wellFormed_decode w) fun p hp =>
    ((agree_assigned_iff _ _ _).mp h p hp).trans (isWordOf_decode w p hp)

/-! ## The fields the decoder reads -/

/-- The mask `m` covers the field, and `c` has the field's value there. -/
def FormatField.fixedBy (p : FormatField) (m c : Word) : Bool :=
  field m p.lo p.len == .allOnes p.len && field c p.lo p.len == p.value

theorem FormatField.holds_of_fixedBy {p : FormatField} {w m c : Word} (h : w &&& m = c) (hp : p.fixedBy m c = true) :
    p.Holds w := by
  obtain ⟨hm, hc⟩ : field m p.lo p.len = .allOnes p.len ∧ field c p.lo p.len = p.value := by
    simpa [fixedBy] using hp
  calc field w p.lo p.len = field (w &&& m) p.lo p.len := by rw [field_and, hm, BitVec.and_allOnes]
    _ = p.value := by rw [h, hc]

/-- A word that meets a mask and match decodes to `i` when these fix the opcode, discriminating bit and vector of `i`
and its other fields are those of the word. -/
theorem decode_of_masked {w m c : Word} {i : Instr} (h : w &&& m = c) (hwf : i.wellFormed = true := by rfl)
    (hfields : ∀ p ∈ format i, p.fixedBy m c = true ∨ p.Holds w := by simp +decide [format]) : decode w = i :=
  decode_of_isWordOf hwf fun p hp => (hfields p hp).elim (FormatField.holds_of_fixedBy h) id

/-- Settles O4, row by row. -/
theorem decodeReadsArithmeticAndControlFields : Obligations.DecodeReadsArithmeticAndControlFields := by
  intro w
  have hr9 : (regField w 9).val = bitsOf w 11 9 := regField_val w 9
  have hr6 : (regField w 6).val = bitsOf w 8 6 := regField_val w 6
  have hr0 : (regField w 0).val = bitsOf w 2 0 := regField_val w 0
  have himm : (field w 0 5).toNat = bitsOf w 4 0 := field_toNat w 4 0
  have hmask : (field w 9 3).toNat = bitsOf w 11 9 := field_toNat w 11 9
  have hoff9 : (field w 0 9).toNat = bitsOf w 8 0 := field_toNat w 8 0
  have hoff11 : (field w 0 11).toNat = bitsOf w 10 0 := field_toNat w 10 0
  exact ⟨
    fun h => ⟨_, _, _, decode_of_masked h, hr9, hr6, hr0⟩,
    fun h => ⟨_, _, _, decode_of_masked h, hr9, hr6, himm⟩,
    fun h => ⟨_, _, _, decode_of_masked h, hr9, hr6, hr0⟩,
    fun h => ⟨_, _, _, decode_of_masked h, hr9, hr6, himm⟩,
    fun h => ⟨_, _, decode_of_masked h, hr9, hr6⟩,
    fun h => ⟨_, _, decode_of_masked h, hmask, hoff9⟩,
    fun h => ⟨_, decode_of_masked h, hr6⟩,
    fun h => ⟨_, decode_of_masked h, hoff11⟩,
    fun h => ⟨_, decode_of_masked h, hr6⟩⟩

/-- The undefined vectors as numbers (`44_trap.md` R127). -/
theorem vectorIsUndefined_iff (v : BitVec 8) :
    Instr.vectorIsUndefined v = true ↔ v.toNat < 0x20 ∨ 0x25 < v.toNat := by
  simp [Instr.vectorIsUndefined, Config.routineVectors, Config.vecGetc, Config.vecOut, Config.vecPuts, Config.vecIn,
    Config.vecPutsp, Config.vecHalt, ← BitVec.toNat_inj]
  omega

/-- Settles O5, row by row. -/
theorem decodeReadsMemoryAndTrapFields : Obligations.DecodeReadsMemoryAndTrapFields := by
  intro w
  have hr9 : (regField w 9).val = bitsOf w 11 9 := regField_val w 9
  have hr6 : (regField w 6).val = bitsOf w 8 6 := regField_val w 6
  have hoff9 : (field w 0 9).toNat = bitsOf w 8 0 := field_toNat w 8 0
  have hoff6 : (field w 0 6).toNat = bitsOf w 5 0 := field_toNat w 5 0
  have hvec : (field w 0 8).toNat = bitsOf w 7 0 := field_toNat w 7 0
  have hlow : (field w 0 12).toNat = bitsOf w 11 0 := field_toNat w 11 0
  exact ⟨
    fun h => ⟨_, _, decode_of_masked h, hr9, hoff9⟩,
    fun h => ⟨_, _, decode_of_masked h, hr9, hoff9⟩,
    fun h => ⟨_, _, _, decode_of_masked h, hr9, hr6, hoff6⟩,
    fun h => ⟨_, _, decode_of_masked h, hr9, hoff9⟩,
    fun h => ⟨_, _, decode_of_masked h, hr9, hoff9⟩,
    fun h => ⟨_, _, decode_of_masked h, hr9, hoff9⟩,
    fun h => ⟨_, _, _, decode_of_masked h, hr9, hr6, hoff6⟩,
    fun h => decode_of_masked h,
    fun h => decode_of_masked h,
    fun h => decode_of_masked h,
    fun h => decode_of_masked h,
    fun h => decode_of_masked h,
    fun h => decode_of_masked h,
    fun h hv => ⟨_, decode_of_masked h ((vectorIsUndefined_iff _).mpr (hvec ▸ hv)), hvec⟩,
    fun h => ⟨_, decode_of_masked h, hlow⟩,
    fun h => ⟨_, decode_of_masked h, hlow⟩⟩

/-! ## The decode table of R60 -/

theorem accepts_iff (row : OpcodeRow) (w : Word) : row.accepts w = true ↔ w &&& row.mask = row.value :=
  beq_iff_eq

/-- The encoder writes a word of the instruction's own row. -/
theorem encode_matches_row : ∀ i : Instr, Laws.EncodeMatchesRow.Statement i
  | .addReg dst src1 src2 => Laws.EncodeMatchesRow.addReg dst src1 src2
  | .addImm dst src1 imm5 => Laws.EncodeMatchesRow.addImm dst src1 imm5
  | .andReg dst src1 src2 => Laws.EncodeMatchesRow.andReg dst src1 src2
  | .andImm dst src1 imm5 => Laws.EncodeMatchesRow.andImm dst src1 imm5
  | .not dst src => Laws.EncodeMatchesRow.not dst src
  | .br condMask pcOffset9 => Laws.EncodeMatchesRow.br condMask pcOffset9
  | .jmp base => Laws.EncodeMatchesRow.jmp base
  | .jsr pcOffset11 => Laws.EncodeMatchesRow.jsr pcOffset11
  | .jsrr base => Laws.EncodeMatchesRow.jsrr base
  | .ld dst pcOffset9 => Laws.EncodeMatchesRow.ld dst pcOffset9
  | .ldi dst pcOffset9 => Laws.EncodeMatchesRow.ldi dst pcOffset9
  | .ldr dst base offset6 => Laws.EncodeMatchesRow.ldr dst base offset6
  | .lea dst pcOffset9 => Laws.EncodeMatchesRow.lea dst pcOffset9
  | .st src pcOffset9 => Laws.EncodeMatchesRow.st src pcOffset9
  | .sti src pcOffset9 => Laws.EncodeMatchesRow.sti src pcOffset9
  | .str src base offset6 => Laws.EncodeMatchesRow.str src base offset6
  | .trapGetc => Laws.EncodeMatchesRow.trapGetc
  | .trapOut => Laws.EncodeMatchesRow.trapOut
  | .trapPuts => Laws.EncodeMatchesRow.trapPuts
  | .trapIn => Laws.EncodeMatchesRow.trapIn
  | .trapPutsp => Laws.EncodeMatchesRow.trapPutsp
  | .trapHalt => Laws.EncodeMatchesRow.trapHalt
  | .trapUndefined vector => Laws.EncodeMatchesRow.trapUndefined vector
  | .rti low => Laws.EncodeMatchesRow.rti low
  | .res low => Laws.EncodeMatchesRow.res low

/-- A row's mask lies inside the assigned bits of its instruction. -/
theorem row_mask_assigned (i : Instr) :
    ∀ row ∈ opcodeTable, row.mnemonic = i.mnemonic → assignedBits i &&& row.mask = row.mask := by
  cases i <;> simp only [assignedBits, Instr.mnemonic] <;> decide

/-- The row of the decoded instruction accepts the word, as it accepts the word the encoder writes. -/
theorem decode_matches_row (w : Word) :
    ∃ row ∈ opcodeTable, row.mnemonic = (decode w).mnemonic ∧ row.accepts w = true := by
  obtain ⟨row, hrow, hname, haccepts⟩ := encode_matches_row (decode w)
  have hmask := row_mask_assigned (decode w) row hrow hname
  refine ⟨row, hrow, hname, (accepts_iff row w).mpr ?_⟩
  calc w &&& row.mask
      = w &&& assignedBits (decode w) &&& row.mask := by rw [BitVec.and_assoc, hmask]
    _ = encode (decode w) &&& assignedBits (decode w) &&& row.mask := by rw [encodeOfDecodeKeepsTheAssignedBits w]
    _ = encode (decode w) &&& row.mask := by rw [BitVec.and_assoc, hmask]
    _ = row.value := (accepts_iff row _).mp haccepts

/-- Two rows whose masks and matches are compatible are one row or differ in priority; the lower priority is that of
the row of the undefined vectors, and the other row fixes a routine's vector. -/
theorem opcodeTable_overlap : ∀ row ∈ opcodeTable, ∀ other ∈ opcodeTable,
    row.value &&& other.mask = other.value &&& row.mask →
      other = row ∨ other.priority < row.priority ∨
        (row.mnemonic = "TRAP.undefined" ∧ field other.mask 0 8 = 0xFF ∧
          field other.value 0 8 ∈ Config.routineVectors) := by
  decide

/-- A word whose instruction is of the row of the undefined vectors has no routine's vector. -/
theorem vector_of_undefined_row {w : Word} (h : (decode w).mnemonic = "TRAP.undefined") :
    field w 0 8 ∉ Config.routineVectors := by
  have hwf := wellFormed_decode w
  have hword := isWordOf_decode w
  cases hd : decode w with
  | trapUndefined v =>
    rw [hd] at hwf hword
    have hvec : field w 0 8 = v := hword (.bits 0 v) (by simp [format])
    simpa [Instr.wellFormed, Instr.vectorIsUndefined, hvec] using hwf
  | _ => simp [hd, Instr.mnemonic] at h

/-- Settles O3: of two rows that accept one word the table says which has the priority. -/
theorem everyWordDecodesToItsOneTableRow : Obligations.EveryWordDecodesToItsOneTableRow := by
  intro w
  obtain ⟨row, hrow, hname, haccepts⟩ := decode_matches_row w
  refine ⟨wellFormed_decode w, row, hrow, hname, haccepts, fun other hother hother_accepts => ?_⟩
  rw [accepts_iff] at haccepts hother_accepts
  have hcompatible : row.value &&& other.mask = other.value &&& row.mask := by
    rw [← haccepts, ← hother_accepts, BitVec.and_assoc, BitVec.and_assoc, BitVec.and_comm row.mask]
  rcases opcodeTable_overlap row hrow other hother hcompatible with heq | hlt | ⟨hundefined, hmask, hroutine⟩
  · exact .inl heq
  · exact .inr hlt
  · have hvec : field w 0 8 = field other.value 0 8 := by
      rw [← hother_accepts, field_and, hmask]; exact BitVec.and_allOnes.symm
    exact absurd (hvec ▸ hroutine) (vector_of_undefined_row (hname ▸ hundefined))

/-! ## The illegal words of R58 -/

/-- The illegal instructions answer a next state with the fault record set, and the others keep it. -/
theorem exec_sets_fault_iff (i : Instr) {s : State} (hs : s.fault = none) :
    (∃ t, exec i s = .next t ∧ t.fault ≠ none) ↔ isIllegal i := by
  constructor
  · rintro ⟨t, hexec, hfault⟩
    by_contra hlegal
    exact hfault (((effect_of_exec hexec).fault.1 hlegal).trans hs)
  · intro hillegal
    obtain ⟨t, hexec⟩ : ∃ t, exec i s = .next t := by
      cases i with
      | trapUndefined _ | rti _ | res _ => exact ⟨_, rfl⟩
      | _ => simp [isIllegal, kind] at hillegal
    exact ⟨t, hexec, (effect_of_exec hexec).fault.2 hillegal⟩

theorem isIllegal_decodeTrap (v : BitVec 8) : isIllegal (decodeTrap v) ↔ Instr.vectorIsUndefined v = true := by
  unfold decodeTrap
  split_ifs <;> simp [isIllegal, kind, Instr.vectorIsUndefined, Config.routineVectors, *]

theorem isIllegal_decode (w : Word) :
    isIllegal (decode w) ↔ Config.opc (opField w) = .rti ∨ Config.opc (opField w) = .res ∨
      (Config.opc (opField w) = .trap ∧ Instr.vectorIsUndefined (field w 0 8) = true) := by
  cases hop : Config.opc (opField w) with
  | trap => simp [decode, hop, isIllegal_decodeTrap]
  | add | and | jsr => simp only [decode, hop]; split <;> simp [isIllegal, kind]
  | not | br | jmp | ld | ldi | ldr | lea | st | sti | str | rti | res => simp [decode, hop, isIllegal, kind]

/-- The opcode of a word by its number. -/
theorem opc_eq_iff (w : Word) (o : Opcode) :
    Config.opc (opField w) = o ↔ bitsOf w 15 12 = (Config.opcodeNumber o).toNat := by
  rw [← FormatField.opcode_holds, ← field_toNat]
  exact BitVec.toNat_inj.symm

/-- Settles O7: the instructions that set the fault record, by the opcode and the vector that decode to them. -/
theorem illegalWordsAreExactlyThoseOfTheList : Obligations.IllegalWordsAreExactlyThoseOfTheList := by
  intro w s hs
  have hvec : (field w 0 8).toNat = bitsOf w 7 0 := field_toNat w 7 0
  rw [exec_sets_fault_iff _ hs, isIllegal_decode, opc_eq_iff, opc_eq_iff, opc_eq_iff, vectorIsUndefined_iff, hvec]
  exact Iff.rfl

/-! ## Sample words -/

/-- Settles O8, by evaluation of the decoder. -/
theorem sampleWordsDecodeAsWritten : Obligations.SampleWordsDecodeAsWritten := by
  unfold Obligations.SampleWordsDecodeAsWritten
  decide

/-! ## signExtend (R55) -/

theorem getLsbD_signExtend {v : Word} {n k : Nat} (hs : v.getLsbD (n - 1) = true) (hk : k < 16) :
    (signExtend v n).getLsbD k = (decide (n ≤ k) || v.getLsbD k) := by
  have hones : (0xFFFF#16).getLsbD (k - n) = true := by
    have hall : 0xFFFF#16 = BitVec.allOnes 16 := rfl
    rw [hall, BitVec.getLsbD_allOnes, decide_eq_true_iff]
    omega
  rw [signExtend, if_pos hs, BitVec.getLsbD_or, BitVec.getLsbD_shiftLeft, hones]
  simp only [hk, decide_true, Bool.and_true, Bool.true_and, ← decide_not, Nat.not_lt, Bool.or_comm]

theorem signExtend_of_clear {v : Word} {n : Nat} (hs : v.getLsbD (n - 1) = false) : signExtend v n = v := by
  simp [signExtend, hs]

theorem signExtend_signExtend (v : Word) (n : Nat) : signExtend (signExtend v n) n = signExtend v n := by
  cases hs : v.getLsbD (n - 1) with
  | false => rw [signExtend_of_clear hs, signExtend_of_clear hs]
  | true =>
    have hset : signExtend v n = v ||| (0xFFFF#16 <<< n) := if_pos hs
    rw [hset, signExtend, BitVec.or_assoc, BitVec.or_self, ite_self]

/-- The extension of a field as a number: the upper half of the field's values moves to the top of the words. -/
theorem toNat_sext {n : Nat} (h : 0 < n) (hn : n ≤ 16) (f : BitVec n) :
    (sext f).toNat = f.toNat + if 2 ^ (n - 1) ≤ f.toNat then 65536 - 2 ^ n else 0 := by
  have hpow : 2 ^ n ≤ 2 ^ 16 := Nat.pow_le_pow_right (by decide) hn
  rw [sext_eq_signExtend h hn, BitVec.toNat_signExtend, BitVec.toNat_setWidth, Nat.mod_eq_of_lt (f.isLt.trans_le hpow)]
  simp [BitVec.msb_eq_decide]

/-- Settles O9: on words bit by bit, on fields by the two's-complement extension. -/
theorem signExtendFollowsItsContract : Obligations.SignExtendFollowsItsContract := by
  have hwidth : ∀ n ∈ [5, 6, 9, 11], 0 < n ∧ n ≤ 16 := by decide
  refine ⟨fun n _ v => ⟨fun hs k hk => getLsbD_signExtend hs hk, signExtend_of_clear, signExtend_signExtend v n⟩,
    fun n hn f => ?_⟩
  obtain ⟨hpos, hle⟩ := hwidth n hn
  have hpow : 2 ^ n ≤ 65536 := Nat.pow_le_pow_right (by decide) hle
  refine ⟨fun hlt => ?_, fun hge => ?_, ?_⟩
  · rw [toNat_sext hpos hle, if_neg hlt.not_ge, Nat.add_zero]
  · rw [toNat_sext hpos hle, if_pos hge, ← Nat.add_sub_assoc hpow]
  · rw [sext_eq_signExtend hpos hle, BitVec.toInt_signExtend_of_le hle]

end Sys2Proof.Machine

/-! The execution cycle (`40_execution_cycle.md`): the three statuses by `run` and the fault record, what a step does in
each of them, and which instructions lead out of RUNNING. -/

namespace Sys2Proof.Machine

/-! ## The statuses (`10_state.md` R18) -/

namespace State

theorem status_eq_running_iff (s : State) : s.status = .running ↔ s.run = true ∧ s.fault = none := by
  cases hf : s.fault <;> cases hr : s.run <;> simp [status, hf, hr]

theorem status_eq_halted_iff (s : State) : s.status = .halted ↔ s.run = false ∧ s.fault = none := by
  cases hf : s.fault <;> cases hr : s.run <;> simp [status, hf, hr]

theorem status_eq_fatal_iff (s : State) : s.status = .fatal ↔ s.fault ≠ none := by
  cases hf : s.fault <;> cases hr : s.run <;> simp [status, hf, hr]

end State

/-! ## A step in each status -/

/-- Settles O13: the fetch is raw, so the executed state differs from `s` in `pc` alone. -/
theorem stepRunsTheDecodedInstruction : Obligations.StepRunsTheDecodedInstruction :=
  fun s hrun hfault => ⟨s.setPc (s.pc + 1), step_of_running hrun hfault, BitVec.toNat_add s.pc 1, fun _ _ => rfl, rfl,
    fun _ _ => rfl, rfl, ⟨rfl, rfl⟩, rfl⟩

theorem step_of_halted {s : State} (hrun : s.run = false) (hfault : s.fault = none) : step s = .fault .halted := by
  simp [step, State.terminalFault, hrun, hfault]

theorem step_of_fatal {s : State} {r : FatalRecord} (hfault : s.fault = some r) :
    step s = .fault (.fatalDecodeError r) := by
  simp [step, State.terminalFault, hfault]

/-- Settles O14: each terminal status has its own stop. -/
theorem terminalStatusesExecuteNoCycle : Obligations.TerminalStatusesExecuteNoCycle :=
  fun _ => ⟨step_of_halted, fun _ => step_of_fatal⟩

/-! ## The transitions of R74 -/

namespace Effect

variable {i : Instr} {s t : State}

/-- From a state without a fault record only the illegal rows lead to FATAL. -/
theorem status_fatal_iff (h : Effect i s t) (hfault : s.fault = none) : t.status = .fatal ↔ isIllegal i := by
  rw [State.status_eq_fatal_iff]
  refine ⟨fun ht => ?_, h.fault.2⟩
  by_contra hlegal
  exact ht ((h.fault.1 hlegal).trans hfault)

/-- From status RUNNING only HALT leads to HALTED; it is no illegal row, so it leaves the fault record unset. -/
theorem status_halted_iff (h : Effect i s t) (hrun : s.run = true) (hfault : s.fault = none) :
    t.status = .halted ↔ i = .trapHalt := by
  rw [State.status_eq_halted_iff]
  constructor
  · rintro ⟨hstopped, -⟩
    by_contra hne
    have hkept : t.run = true := (h.run.1 hne).trans hrun
    simp [hkept] at hstopped
  · rintro rfl
    have hlegal : ¬ isIllegal .trapHalt := by simp [isIllegal, kind]
    exact ⟨h.run.2 rfl, (h.fault.1 hlegal).trans hfault⟩

end Effect

/-- Settles O15: what the fetched instruction does to `run` and to the fault record decides the status after it. -/
theorem onlyHaltAndIllegalInstructionsLeaveRunning : Obligations.OnlyHaltAndIllegalInstructionsLeaveRunning := by
  intro s t hstep
  obtain ⟨hrun, hfault, hexec⟩ := step_next hstep
  have heff := effect_of_exec hexec
  exact ⟨s.status_eq_running_iff.2 ⟨hrun, hfault⟩, heff.status_halted_iff hrun hfault, heff.status_fatal_iff hfault⟩

end Sys2Proof.Machine

/-! The arithmetic family (`41_alu.md`): the destination write that ADD, AND and NOT share, and for each form the words
that decode to it and the value it writes. -/

namespace Sys2Proof.Machine

/-- A destination write leaves the flag of the written register in COND (`10_state.md` R15) and changes nothing but
that register and COND. -/
theorem State.writeDst_flag_and_frame (s : State) (dst : Reg) (v : Word) :
    let t := s.writeDst dst v
    FlagsOf (t.reg dst) t.cond ∧ KeepsRegs s t [dst] ∧ t.pc = s.pc ∧ KeepsMem s t [] ∧ KeepsStatus s t ∧
      t.console = s.console := by
  have hflag : FlagsOf ((s.writeDst dst v).reg dst) (s.writeDst dst v).cond := by
    rw [writeDst_reg_self, writeDst_cond]
    exact flagsOf_condOf v
  exact ⟨hflag, s.writeDst_keepsRegs dst v, rfl, fun _ _ => rfl, ⟨rfl, rfl⟩, rfl⟩

/-! ## ADD (R80, R81) -/

/-- Settles O31: the destination write of the sum, and a sum of words is a sum modulo 2^16. -/
theorem addRegisterSumsModulo65536 : Obligations.AddRegisterSumsModulo65536 := by
  refine ⟨fun w hop hmode => decode_of_isWordOf rfl ?_, fun dst src1 src2 s =>
    ⟨s.writeDst dst (s.reg src1 + s.reg src2), rfl, ?_, s.writeDst_flag_and_frame dst _⟩⟩
  · simp [IsWordOf, format, hop, hmode, -BitVec.getLsbD_eq_getElem]
  · rw [State.writeDst_reg_self, BitVec.toNat_add]

/-- Settles O32: as the register form, with the immediate extended as `30_encoding.md` R55 says. -/
theorem addImmediateSumsTheExtendedImmediate : Obligations.AddImmediateSumsTheExtendedImmediate := by
  refine ⟨fun w hop hmode => decode_of_isWordOf rfl ?_, fun dst src1 imm5 s =>
    ⟨s.writeDst dst (s.reg src1 + sext imm5), rfl, ?_, s.writeDst_flag_and_frame dst _⟩⟩
  · simp [IsWordOf, format, hop, hmode, -BitVec.getLsbD_eq_getElem]
  · rw [State.writeDst_reg_self, BitVec.toNat_add, sext_eq_signExtend (by decide) (by decide)]

/-! ## AND (R82, R83) -/

/-- Settles O33: the destination write of the conjunction, whose bits are the conjunctions of the bits. -/
theorem andRegisterActsOnEachBit : Obligations.AndRegisterActsOnEachBit := by
  refine ⟨fun w hop hmode => decode_of_isWordOf rfl ?_, fun dst src1 src2 s =>
    ⟨s.writeDst dst (s.reg src1 &&& s.reg src2), rfl, fun k _ => ?_, s.writeDst_flag_and_frame dst _⟩⟩
  · simp [IsWordOf, format, hop, hmode, -BitVec.getLsbD_eq_getElem]
  · rw [State.writeDst_reg_self, BitVec.getLsbD_and]

/-- Settles O34: as the register form, with the immediate extended "exactly as for ADD". -/
theorem andImmediateMasksWithTheExtendedImmediate : Obligations.AndImmediateMasksWithTheExtendedImmediate := by
  refine ⟨fun w hop hmode => decode_of_isWordOf rfl ?_, fun dst src1 imm5 s =>
    ⟨s.writeDst dst (s.reg src1 &&& sext imm5), rfl, fun k _ => ?_, s.writeDst_flag_and_frame dst _⟩⟩
  · simp [IsWordOf, format, hop, hmode, -BitVec.getLsbD_eq_getElem]
  · rw [State.writeDst_reg_self, BitVec.getLsbD_and, sext_eq_signExtend (by decide) (by decide)]

/-! ## NOT (R84) -/

/-- Settles O35: the destination write of the complement, which as a number is the distance to 0xFFFF. -/
theorem notComplementsEveryBit : Obligations.NotComplementsEveryBit := by
  refine ⟨fun w hop => decode_of_isWordOf rfl ?_, fun dst src s =>
    ⟨s.writeDst dst (~~~ s.reg src), rfl, ?_, s.writeDst_flag_and_frame dst _⟩⟩
  · simp [IsWordOf, format, hop]
  · rw [State.writeDst_reg_self, BitVec.toNat_not]

end Sys2Proof.Machine

/-! The control family (`42_control.md`): what the four transfers can do and what they leave unchanged, BR's test, and
for each transfer the words that decode to it and its target. -/

namespace Sys2Proof.Machine

/-! ## Who writes `pc` (R90) -/

namespace Effect

variable {i : Instr} {s t : State}

/-- No effect but the two of the control transfers writes `pc`. -/
theorem pc (h : Effect i s t) (hkind : kind i ≠ .transfer) : t.pc = s.pc := by
  cases h with
  | jumps _ htransfer | linksAndJumps _ htransfer => exact absurd htransfer hkind
  | writesDst | stores | takesCode | writesChars | halts | raisesAfterLink | raises => simp

/-- A control transfer is a write of `pc`, after the link where it links. -/
theorem transfer_cases (h : Effect i s t) (hkind : kind i = .transfer) :
    ∃ target, t = s.setPc target ∨ t = s.link.setPc target := by
  cases h with
  | jumps target => exact ⟨target, .inl rfl⟩
  | linksAndJumps target => exact ⟨target, .inr rfl⟩
  | writesDst _ _ hother => simp [hkind] at hother
  | stores _ _ _ hother | raises _ hother => simp [hkind] at hother
  | takesCode _ _ hi => rcases hi with rfl | rfl <;> simp [kind] at hkind
  | writesChars _ hi => rcases hi with rfl | rfl | rfl <;> simp [kind] at hkind
  | halts _ hi | raisesAfterLink _ hi => subst hi; simp [kind] at hkind

end Effect

/-- Settles O22; its first part holds of a TRAP with an undefined vector too, of which the statement does not speak. -/
theorem onlyControlTransfersWritePc : Obligations.OnlyControlTransfersWritePc := by
  intro i s t _ hexec
  refine ⟨(effect_of_exec hexec).pc, fun hkind => ?_⟩
  obtain ⟨target, rfl | rfl⟩ := (effect_of_exec hexec).transfer_cases hkind
  all_goals exact ⟨rfl, rfl, ⟨rfl, rfl⟩, rfl⟩

/-! ## The frames of a jump, without and with the link -/

namespace State

theorem setPc_frame (s : State) (target : Word) :
    let t := s.setPc target
    KeepsRegs s t [] ∧ t.cond = s.cond ∧ KeepsMem s t [] ∧ KeepsStatus s t ∧ t.console = s.console :=
  ⟨fun _ _ => rfl, rfl, fun _ _ => rfl, ⟨rfl, rfl⟩, rfl⟩

/-- The jump with the link: `R7` is the return address, and no other register is written. -/
theorem link_setPc_frame (s : State) (target : Word) :
    let t := s.link.setPc target
    KeepsRegs s t [7] ∧ t.cond = s.cond ∧ KeepsMem s t [] ∧ KeepsStatus s t ∧ t.console = s.console :=
  ⟨fun _ hr => s.link_reg (by simpa using hr), rfl, fun _ _ => rfl, ⟨rfl, rfl⟩, rfl⟩

/-- The PC-relative address, by the two's-complement extension of the offset. -/
theorem pcRelative_eq {n : Nat} (s : State) (offset : BitVec n) (h : 0 < n := by decide) (hn : n ≤ 16 := by decide) :
    s.pcRelative offset = s.pc + offset.signExtend 16 :=
  congrArg (s.pc + ·) (sext_eq_signExtend h hn offset)

/-! ## BR (R91) -/

theorem condSelected_iff (s : State) (condMask : BitVec 3) :
    s.condSelected condMask = true ↔ condMask.setWidth 16 &&& s.cond ≠ 0 :=
  bne_iff_ne

theorem condSelected_eq_false_iff (s : State) (condMask : BitVec 3) :
    s.condSelected condMask = false ↔ condMask.setWidth 16 &&& s.cond = 0 :=
  bne_eq_false_iff_eq

theorem condSelected_zero (s : State) : s.condSelected 0 = false :=
  (s.condSelected_eq_false_iff 0).2 BitVec.zero_and

/-- The mask 7 has the bits of all three flags, and a legal COND is one of them. -/
theorem condSelected_seven {s : State} (hlegal : s.condLegal) : s.condSelected 7 = true := by
  rw [condSelected_iff]
  rcases hlegal with h | h | h <;> rw [h] <;> decide

/-- Where BR goes: the PC-relative address when it is taken, the next instruction when it is not. -/
def brTarget (s : State) (condMask : BitVec 3) (pcOffset9 : BitVec 9) : Word :=
  if s.condSelected condMask then s.pcRelative pcOffset9 else s.pc

theorem brTarget_taken {s : State} {condMask : BitVec 3} (h : s.condSelected condMask = true) (pcOffset9 : BitVec 9) :
    s.brTarget condMask pcOffset9 = s.pc + pcOffset9.signExtend 16 :=
  (if_pos h).trans (s.pcRelative_eq pcOffset9)

theorem brTarget_notTaken {s : State} {condMask : BitVec 3} (h : s.condSelected condMask = false)
    (pcOffset9 : BitVec 9) : s.brTarget condMask pcOffset9 = s.pc := by
  simp [brTarget, h]

end State

/-- BR taken or not is one write of `pc`. -/
theorem exec_br (condMask : BitVec 3) (pcOffset9 : BitVec 9) (s : State) :
    exec (.br condMask pcOffset9) s = .next (s.setPc (s.brTarget condMask pcOffset9)) :=
  congrArg Host.Outcome.next (apply_ite s.setPc _ (s.pcRelative pcOffset9) s.pc).symm

/-- Settles O36: the test decides the target, and masks 0 and 7 decide the test. -/
theorem branchIsTakenOnTheSelectedFlag : Obligations.BranchIsTakenOnTheSelectedFlag := by
  refine ⟨fun w hop => decode_of_isWordOf rfl (by simp [IsWordOf, format, hop]), fun condMask pcOffset9 s =>
    ⟨_, exec_br condMask pcOffset9 s, fun htaken => ?_, fun hclear => ?_, ?_, ?_, s.setPc_frame _⟩⟩
  · exact State.brTarget_taken ((s.condSelected_iff condMask).2 htaken) pcOffset9
  · exact State.brTarget_notTaken ((s.condSelected_eq_false_iff condMask).2 hclear) pcOffset9
  · rintro rfl
    exact State.brTarget_notTaken s.condSelected_zero pcOffset9
  · rintro rfl hlegal
    exact State.brTarget_taken (State.condSelected_seven hlegal) pcOffset9

/-! ## JMP (R92) -/

/-- Settles O37. -/
theorem jumpGoesToTheBaseRegister : Obligations.JumpGoesToTheBaseRegister :=
  ⟨fun w hop => decode_of_isWordOf rfl (by simp [IsWordOf, format, hop]),
    fun base s => ⟨s.setPc (s.reg base), rfl, rfl, s.setPc_frame _⟩⟩

/-! ## JSR and JSRR (R93, R94) -/

/-- Settles O38: the target is relative to the incremented `pc`, which the link does not change. -/
theorem jsrLinksAndJumpsRelative : Obligations.JsrLinksAndJumpsRelative := by
  refine ⟨fun w hop hlong => decode_of_isWordOf rfl ?_, fun pcOffset11 s =>
    ⟨_, rfl, s.link_reg_seven, s.link.pcRelative_eq pcOffset11, s.link_setPc_frame _⟩⟩
  simp [IsWordOf, format, hop, hlong, -BitVec.getLsbD_eq_getElem]

/-- Settles O39: a base other than `R7` is not changed by the link. -/
theorem jsrrLinksAndJumpsToTheBase : Obligations.JsrrLinksAndJumpsToTheBase := by
  refine ⟨fun w hop hlong => decode_of_isWordOf rfl ?_, fun base s hbase =>
    ⟨_, rfl, s.link_reg_seven, s.link_reg hbase, s.link_setPc_frame _⟩⟩
  simp [IsWordOf, format, hop, hlong, -BitVec.getLsbD_eq_getElem]

/-- Settles O40: the base is read after the link, so it is the link (D4). -/
theorem jsrrThroughR7GoesToTheNextInstruction : Obligations.JsrrThroughR7GoesToTheNextInstruction :=
  fun s => ⟨_, rfl, s.link_reg_seven, s.link_reg_seven, s.link_setPc_frame _⟩

end Sys2Proof.Machine

/-! The load and store family (`43_load_store.md`): the addressing modes, the load and the store that the forms share, and
for each form the words that decode to it and the address it uses. -/

namespace Sys2Proof.Machine

/-! ## The addressing modes (R107) -/

/-- The base plus offset address, by the two's-complement extension of the offset. -/
theorem State.baseOffset_eq (s : State) (base : Reg) (offset6 : BitVec 6) :
    s.baseOffset base offset6 = s.reg base + offset6.signExtend 16 :=
  congrArg (s.reg base + ·) (sext_eq_signExtend (by decide) (by decide) offset6)

/-- Settles O41: each address is a sum of words, hence a sum modulo 2^16. -/
theorem addressingModesAreTheThree : Obligations.AddressingModesAreTheThree := by
  refine ⟨fun s off => ?_, fun s base off => ?_, fun s off => ?_⟩
  · rw [s.pcRelative_eq off, BitVec.toNat_add]
  · rw [s.baseOffset_eq base off, BitVec.toNat_add]
  · exact congrArg s.memRead (s.pcRelative_eq off)

/-! ## What a read through `memRead` leaves unchanged, and what the load after it does -/

namespace State

/-- A read, polling or not, changes no register, `pc`, COND or status. -/
theorem memRead_frame (s : State) (a : Word) :
    let t := (s.memRead a).2
    KeepsRegs s t [] ∧ t.pc = s.pc ∧ t.cond = s.cond ∧ KeepsStatus s t :=
  ⟨fun r _ => s.memRead_reg a r, s.memRead_pc a, s.memRead_cond a, s.memRead_run a, s.memRead_fault a⟩

/-- A load is a read, then the destination write of the word read: memory and the console are as the read leaves them. -/
theorem loadFrom_flag_and_frame (s : State) (dst : Reg) (a : Word) :
    let got := s.memRead a
    let t := s.loadFrom dst a
    t.reg dst = got.1 ∧ FlagsOf (t.reg dst) t.cond ∧ KeepsRegs s t [dst] ∧ t.pc = s.pc ∧ KeepsMem got.2 t [] ∧
      (a ≠ Config.kbsr → KeepsMem s t []) ∧ KeepsStatus s t ∧ t.console = got.2.console := by
  obtain ⟨hregs, hpc, -, hstatus⟩ := s.memRead_frame a
  obtain ⟨hflag, hkept, -, hmem, -, hconsole⟩ := (s.memRead a).2.writeDst_flag_and_frame dst (s.memRead a).1
  refine ⟨writeDst_reg_self _ dst _, hflag, fun r hr => (hkept r hr).trans (hregs r List.not_mem_nil), hpc, hmem,
    fun hne => ?_, hstatus, hconsole⟩
  rw [loadFrom, s.memRead_of_ne hne]
  exact fun _ _ => rfl

end State

/-! ## LD, LDI and LDR (R100, R101, R102) -/

/-- Settles O42: the load at the PC-relative address. -/
theorem ldLoadsThePcRelativeWord : Obligations.LdLoadsThePcRelativeWord :=
  ⟨fun w hop => decode_of_isWordOf rfl (by simp [IsWordOf, format, hop]),
    fun dst _ s => ⟨_, rfl, s.loadFrom_flag_and_frame dst _⟩⟩

/-- Settles O43: the load at the pointer, from the state that the pointer read leaves, which is `s` itself when that read
does not poll. -/
theorem ldiLoadsThroughThePointer : Obligations.LdiLoadsThroughThePointer := by
  refine ⟨fun w hop => decode_of_isWordOf rfl (by simp [IsWordOf, format, hop]), fun dst off s =>
    ⟨(s.indirect off).2.loadFrom dst (s.indirect off).1, rfl, ?_⟩⟩
  obtain ⟨hregs, hpc, -, hrun, hfault⟩ := s.memRead_frame (s.pcRelative off)
  obtain ⟨hword, hflag, hkept, hpc', hmem, hplain, ⟨hrun', hfault'⟩, hconsole⟩ :=
    (s.indirect off).2.loadFrom_flag_and_frame dst (s.indirect off).1
  refine ⟨hword, hflag, fun r hr => (hkept r hr).trans (hregs r List.not_mem_nil), hpc'.trans hpc, hmem,
    fun hpointer hdatum => ?_, ⟨hrun'.trans hrun, hfault'.trans hfault⟩, hconsole⟩
  have hraw : s.indirect off = (s.cell (s.pcRelative off), s) := s.memRead_of_ne hpointer
  rw [hraw] at hplain ⊢
  exact hplain hdatum

/-- Settles O44: the load at the base plus offset address, which is formed before `dst` is written. -/
theorem ldrLoadsTheBaseOffsetWord : Obligations.LdrLoadsTheBaseOffsetWord :=
  ⟨fun w hop => decode_of_isWordOf rfl (by simp [IsWordOf, format, hop]),
    fun dst _ _ s => ⟨_, rfl, s.loadFrom_flag_and_frame dst _⟩⟩

/-! ## LEA (R103) -/

/-- Settles O45: the destination write of the address itself. -/
theorem leaLoadsTheAddressAndSetsFlags : Obligations.LeaLoadsTheAddressAndSetsFlags := by
  refine ⟨fun w hop => decode_of_isWordOf rfl (by simp [IsWordOf, format, hop]), fun dst off s =>
    ⟨s.writeDst dst (s.pcRelative off), rfl, ?_, s.writeDst_flag_and_frame dst _⟩⟩
  rw [State.writeDst_reg_self, s.pcRelative_eq off]

/-! ## ST, STI and STR (R104, R105, R106) -/

/-- Settles O46: the store at the PC-relative address. -/
theorem stStoresAtThePcRelativeAddress : Obligations.StStoresAtThePcRelativeAddress :=
  ⟨fun w hop => decode_of_isWordOf rfl (by simp [IsWordOf, format, hop]),
    fun src _ s => ⟨_, rfl, memWriteStoresUnconditionally s _ (s.reg src)⟩⟩

/-- Settles O47: the store at the pointer, from the state that the pointer read leaves; that read changes no register,
so the word stored is the old one. -/
theorem stiStoresThroughThePointer : Obligations.StiStoresThroughThePointer := by
  refine ⟨fun w hop => decode_of_isWordOf rfl (by simp [IsWordOf, format, hop]), fun src off s =>
    ⟨(s.indirect off).2.memWrite (s.indirect off).1 ((s.indirect off).2.reg src), rfl, ?_⟩⟩
  obtain ⟨hregs, hpc, hcond, hrun, hfault⟩ := s.memRead_frame (s.pcRelative off)
  obtain ⟨hcell, hmem, hregs', hpc', hcond', ⟨hrun', hfault'⟩, hconsole⟩ :=
    memWriteStoresUnconditionally (s.indirect off).2 (s.indirect off).1 ((s.indirect off).2.reg src)
  refine ⟨hcell.trans (hregs src List.not_mem_nil), hmem, fun hpointer => ?_,
    fun r hr => (hregs' r hr).trans (hregs r hr), hpc'.trans hpc, hcond'.trans hcond,
    ⟨hrun'.trans hrun, hfault'.trans hfault⟩, hconsole⟩
  have hraw : s.indirect off = (s.cell (s.pcRelative off), s) := s.memRead_of_ne hpointer
  rw [hraw] at hmem ⊢
  exact hmem

/-- Settles O48: the store at the base plus offset address. -/
theorem strStoresAtTheBaseOffsetAddress : Obligations.StrStoresAtTheBaseOffsetAddress :=
  ⟨fun w hop => decode_of_isWordOf rfl (by simp [IsWordOf, format, hop]),
    fun src _ _ s => ⟨_, rfl, memWriteStoresUnconditionally s _ (s.reg src)⟩⟩

end Sys2Proof.Machine

/-! The trap family (`44_trap.md`): the words of each TRAP, the frames that the routines share, the string walk over the
whole of memory, and for each routine what it does. -/

namespace Sys2Proof.Machine

/-- A TRAP word decodes by its vector alone (R120). -/
theorem decode_trap {w : Word} {v : BitVec 8} (hop : Config.opc (opField w) = .trap) (hvec : field w 0 8 = v) :
    decode w = decodeTrap v := by
  simp only [decode, hop, hvec]

/-! ## The string walk over the whole of memory (R123, R125) -/

/-- The cell of a string that is the first without `p` is one of the 65,536: farther on the addresses repeat. -/
theorem first_string_cell_lt {p : Word → Prop} {a : Word} {n : Nat} (hbefore : ∀ k < n, p (a + BitVec.ofNat 16 k))
    (hend : ¬ p (a + BitVec.ofNat 16 n)) : n < Config.memWords := by
  by_contra hge
  have hfar : 65536 ≤ n := not_lt.mp hge
  have hwrap : BitVec.ofNat 16 (n % 65536) = BitVec.ofNat 16 n := by simp [← BitVec.toNat_inj]
  exact hend (hwrap ▸ hbefore (n % 65536) (by omega))

section

variable {chars : Word → Option (List Word)} {s : State}

/-- The walk over as many cells as memory has reaches every cell, wherever it starts. -/
theorem walkString_memWords_none {a : Word} :
    walkString chars Config.memWords a s = none ↔ ∀ b, chars (s.cell b) ≠ none := by
  rw [walkString_none]
  refine ⟨fun h b => ?_, fun h k _ => h _⟩
  have hreach : a + BitVec.ofNat 16 (b - a).toNat = b := by
    rw [BitVec.ofNat_toNat, BitVec.setWidth_eq, add_sub_cancel]
  exact hreach ▸ h (b - a).toNat (b - a).isLt

/-- With no cell that ends a string, the routine is the named stuck state (U7). -/
theorem writeString_of_endless (h : ∀ a, chars (s.cell a) ≠ none) : writeString chars s = .fault .stringNeverEnds := by
  rw [writeString, walkString_memWords_none.mpr h]

theorem writeString_next_iff : (∃ t, writeString chars s = .next t) ↔ ∃ a, chars (s.cell a) = none := by
  constructor
  · rintro ⟨t, ht⟩
    by_contra! h
    rw [writeString_of_endless h] at ht
    cases ht
  · rintro ⟨a, ha⟩
    cases hwalk : walkString chars Config.memWords (s.reg 0) s with
    | none => exact absurd ha (walkString_memWords_none.mp hwalk a)
    | some t => exact ⟨t, by rw [writeString, hwalk]⟩

/-- When cell `n` of the string at `R0` is the first that ends it, the routine, after its link, makes the console calls
of the cells before it, in order, and nothing else. -/
theorem writeString_link_of_first_end {calls : Word → List ConsoleCall}
    (hcalls : ∀ w, chars w ≠ none → ((chars w).getD []).map .writeChar = calls w) {n : Nat}
    (hbefore : ∀ k < n, chars (s.cell (s.reg 0 + BitVec.ofNat 16 k)) ≠ none)
    (hend : chars (s.cell (s.reg 0 + BitVec.ofNat 16 n)) = none) :
    ∃ l, writeString chars s.link = .next (s.link.writeChars l) ∧
      l.map .writeChar = (List.range n).flatMap fun k => calls (s.cell (s.reg 0 + BitVec.ofNat 16 k)) := by
  have hn : n < Config.memWords :=
    first_string_cell_lt (p := fun a => chars (s.cell a) ≠ none) hbefore (not_not_intro hend)
  refine ⟨_, by rw [writeString, s.link_reg_zero, walkString_ends n s.link hn hbefore hend], ?_⟩
  rw [List.map_flatMap]
  exact List.flatMap_congr fun k hk => hcalls _ (hbefore k (List.mem_range.mp hk))

end

/-! ## The characters of a cell -/

theorem putsChars_eq_none_iff (w : Word) : putsChars w = none ↔ w = 0x0000#16 := by
  simp [putsChars]

/-- PUTS hands over the whole cell (D10). -/
theorem putsChars_calls (w : Word) (h : putsChars w ≠ none) :
    ((putsChars w).getD []).map ConsoleCall.writeChar = [.writeChar w] := by
  have hw : w ≠ 0x0000#16 := mt (putsChars_eq_none_iff w).mpr h
  simp [putsChars, hw]

theorem zext16_eq_ofNat {n : Nat} (v : BitVec n) : zext16 v = BitVec.ofNat 16 v.toNat := (BitVec.ofNat_toNat 16 v).symm

theorem zext16_eq_zero_iff (v : BitVec 8) : zext16 v = 0 ↔ v = 0 := by
  simp [zext16, ← BitVec.toNat_inj]
  omega

/-- The two bytes of a cell (`20_memory.md` R32), as the model cuts them out and as numbers. -/
theorem zext16_lowByte (w : Word) : zext16 (w.extractLsb' 0 8) = lowByte w := by
  rw [zext16_eq_ofNat, lowByte, ← field_toNat]; rfl

theorem zext16_highByte (w : Word) : zext16 (w.extractLsb' 8 8) = highByte w := by
  rw [zext16_eq_ofNat, highByte, ← field_toNat]; rfl

theorem putspChars_eq (w : Word) : putspChars w = if lowByte w = 0 then none else
    some (lowByte w :: if highByte w = 0 then [] else [highByte w]) := by
  simp only [putspChars, ← zext16_lowByte, ← zext16_highByte, zext16_eq_zero_iff]
  split_ifs <;> rfl

theorem putspChars_eq_none_iff (w : Word) : putspChars w = none ↔ lowByte w = 0 := by
  simp [putspChars_eq]

/-- PUTSP hands over the low byte, then the high byte if it is not zero. -/
theorem putspChars_calls (w : Word) (h : putspChars w ≠ none) :
    ((putspChars w).getD []).map ConsoleCall.writeChar = .writeChar (lowByte w) ::
      if highByte w = 0 then [] else [.writeChar (highByte w)] := by
  have hlow : lowByte w ≠ 0 := mt (putspChars_eq_none_iff w).mpr h
  rw [putspChars_eq, if_neg hlow]
  split_ifs <;> rfl

/-! ## The frames of the routines -/

/-- OUT, PUTS and PUTSP: the link, then characters, and nothing else. -/
theorem State.link_writeChars_frame (s : State) (l : List Word) :
    let t := s.link.writeChars l
    KeepsInput s.console t.console ∧ t.reg 7 = s.pc ∧ KeepsRegs s t [7] ∧ t.pc = s.pc ∧ t.cond = s.cond ∧
      KeepsMem s t [] ∧ KeepsStatus s t :=
  ⟨⟨rfl, rfl, rfl, rfl⟩, s.link_reg_seven, fun _ hr => s.link_reg (by simpa using hr), rfl, rfl, fun _ _ => rfl, rfl, rfl⟩

/-- GETC and IN: the link, then the read of the character that the console `c` gives next, which goes into `R0`. -/
theorem State.link_takeCode_frame (s : State) (c : Console) (call : Word → ConsoleCall) :
    let t := (s.link.setConsole (c.takeCode call)).writeDst 0 c.nextCode
    t.console.calls = c.calls ++ [call (t.reg 0)] ∧ (∀ k rest, c.codes = k :: rest → t.reg 0 = k) ∧
      t.console.codes = c.codes.tail ∧ t.console.schedule = c.schedule ∧ t.reg 7 = s.pc ∧
      FlagsOf (t.reg 0) t.cond ∧ KeepsRegs s t [0, 7] ∧ t.pc = s.pc ∧ KeepsMem s t [] ∧ KeepsStatus s t := by
  obtain ⟨hflag, hkept, -⟩ := (s.link.setConsole (c.takeCode call)).writeDst_flag_and_frame 0 c.nextCode
  refine ⟨by simp, fun k rest h => ?_, rfl, rfl, ?_, hflag, fun r hr => ?_, rfl, fun _ _ => rfl, rfl, rfl⟩
  · rw [writeDst_reg_self, c.nextCode_cons h]
  · exact (hkept 7 (by decide)).trans s.link_reg_seven
  · obtain ⟨h0, h7⟩ : r ≠ 0 ∧ r ≠ 7 := by simpa using hr
    exact (hkept r (by simpa using h0)).trans (s.link_reg h7)

/-! ## PUTS (R123) -/

/-- Settles O51: the walk up to the first zero cell, whose calls are one for each cell. -/
theorem putsWritesCellsUpToTheFirstZero : Obligations.PutsWritesCellsUpToTheFirstZero := by
  refine ⟨fun w => decode_trap, fun s => ⟨fun n hbefore hend => ?_, fun h => ?_⟩⟩
  · obtain ⟨l, hexec, hcalls⟩ := writeString_link_of_first_end (s := s) putsChars_calls
      (fun k hk => mt (putsChars_eq_none_iff _).mp (hbefore k hk)) ((putsChars_eq_none_iff _).mpr hend)
    refine ⟨_, hexec, ?_, s.link_writeChars_frame l⟩
    rw [List.map_eq_flatMap]
    exact congrArg (s.console.calls ++ ·) hcalls
  · exact writeString_of_endless fun a => mt (putsChars_eq_none_iff _).mp (h a)

/-- Settles O54. -/
theorem putsEndsExactlyWhenSomeCellIsZero : Obligations.PutsEndsExactlyWhenSomeCellIsZero :=
  fun s => (writeString_next_iff (s := s.link)).trans (exists_congr fun a => putsChars_eq_none_iff (s.cell a))

/-! ## PUTSP (R125) -/

/-- Settles O53: the walk up to the first cell with a zero low byte, whose calls are one or two for each cell. -/
theorem putspWritesBytesUpToTheFirstZeroLowByte : Obligations.PutspWritesBytesUpToTheFirstZeroLowByte := by
  refine ⟨fun w => decode_trap, fun s => ⟨fun n hbefore hend => ?_, fun h => ?_⟩⟩
  · obtain ⟨l, hexec, hcalls⟩ := writeString_link_of_first_end (s := s) putspChars_calls
      (fun k hk => mt (putspChars_eq_none_iff _).mp (hbefore k hk)) ((putspChars_eq_none_iff _).mpr hend)
    exact ⟨_, hexec, congrArg (s.console.calls ++ ·) hcalls, s.link_writeChars_frame l⟩
  · exact writeString_of_endless fun a => mt (putspChars_eq_none_iff _).mp (h a)

/-- Settles O55. -/
theorem putspEndsExactlyWhenSomeLowByteIsZero : Obligations.PutspEndsExactlyWhenSomeLowByteIsZero :=
  fun s => (writeString_next_iff (s := s.link)).trans (exists_congr fun a => putspChars_eq_none_iff (s.cell a))

/-! ## The table of R128 -/

/-- What the tables of the model say of the six routines. -/
theorem tables_of_routine {i : Instr} (h : kind i = .routine) (s : State) :
    links i = true ∧ (∀ r ∈ destRegs i, r ∈ [0, 7]) ∧ storeAddresses i s = [] ∧ readAddresses i s = [] ∧
      ¬ isIllegal i := by
  have hlegal : ¬ isIllegal i := by simp [isIllegal, h]
  cases i with
  | trapGetc | trapIn | trapOut | trapPuts | trapPutsp | trapHalt => exact ⟨rfl, by decide, rfl, rfl, hlegal⟩
  | _ => cases h

/-- Settles O57: the effect of a routine, read through the tables. -/
theorem routinesTouchOnlyWhatTheTableLists : Obligations.RoutinesTouchOnlyWhatTheTableLists := by
  intro i s t hkind hexec
  obtain ⟨hlinks, hdest, hstores, hreads, hlegal⟩ := tables_of_routine hkind s
  have heff := effect_of_exec hexec
  have hmem := heff.keepsMem
  rw [hstores, hreads] at hmem
  refine ⟨heff.link hlinks, fun r hr => heff.keepsRegs r (mt (hdest r) hr), fun hflag => ⟨?_, heff.cond.2 hflag⟩,
    heff.pc (by simp [hkind]), hmem, heff.fault.1 hlegal, heff.run.1⟩
  exact heff.keepsRegs 0 (by simp [destRegs, hflag, hlinks])

/-! ## GETC and IN (R121, R124) -/

/-- A read that returns is stored; a read that never returns is the named stuck state (U6). -/
theorem storeCode_ite (returns : Bool) (code : Word) (s : State) :
    storeCode (if returns then some (code, s) else none) =
      if returns then .next (s.writeDst 0 code) else .fault .consoleReadNeverReturns := by
  cases returns <;> rfl

theorem exec_trapGetc (s : State) : exec .trapGetc s =
    if s.console.answers then .next ((s.link.setConsole (s.console.takeCode .readChar)).writeDst 0 s.console.nextCode)
    else .fault .consoleReadNeverReturns :=
  storeCode_ite ..

theorem exec_trapIn (s : State) : exec .trapIn s =
    if s.console.answers then
      .next ((s.link.setConsole ((s.console.write Config.inPrompt).takeCode .readCharEcho)).writeDst 0 s.console.nextCode)
    else .fault .consoleReadNeverReturns :=
  storeCode_ite ..

/-- Settles O49: the read from the console as it stands. -/
theorem getcReadsOneCharacterIntoR0 : Obligations.GetcReadsOneCharacterIntoR0 := by
  refine ⟨fun w => decode_trap, fun s => ⟨fun h => ?_, fun h => ?_⟩⟩
  · exact ⟨_, (exec_trapGetc s).trans (if_pos h), s.link_takeCode_frame s.console .readChar⟩
  · simp [exec_trapGetc, h]

/-- Settles O52: the read from the console that has the prompt. -/
theorem inPromptsAndReadsOneEchoedCharacter : Obligations.InPromptsAndReadsOneEchoedCharacter := by
  refine ⟨fun w => decode_trap, fun s => ⟨fun h => ?_, fun h => ?_⟩⟩
  · exact ⟨_, (exec_trapIn s).trans (if_pos h), s.link_takeCode_frame (s.console.write Config.inPrompt) .readCharEcho⟩
  · simp [exec_trapIn, h]

/-! ## OUT and HALT (R122, R126) -/

/-- Settles O50: the link leaves `R0` as it was. -/
theorem outWritesR0 : Obligations.OutWritesR0 := by
  refine ⟨fun w => decode_trap, fun s => ⟨s.link.writeChars [s.link.reg 0], rfl, ?_, s.link_writeChars_frame _⟩⟩
  simp

/-- Settles O56: the message, then `run` is clear, and a step stops at that when no fault record is set. -/
theorem haltClearsTheRunningFlag : Obligations.HaltClearsTheRunningFlag := by
  refine ⟨fun w => decode_trap, fun s => ⟨(s.link.writeChars Config.haltMessage).stop, rfl, ?_⟩⟩
  obtain ⟨hinput, hlink, hregs, hpc, hcond, hmem, -⟩ := s.link_writeChars_frame Config.haltMessage
  exact ⟨rfl, rfl, rfl, hinput, hlink, hregs, hpc, hcond, hmem, fun hfault => step_of_halted rfl hfault⟩

/-! ## An undefined vector (R127) -/

/-- Settles O58: a vector that is none of the six is undefined, and the fault record it leaves stops the next step. -/
theorem undefinedVectorRaisesTheFatalError : Obligations.UndefinedVectorRaisesTheFatalError := by
  refine ⟨fun w hop hvec => ?_, fun vector s _ => ⟨s.link.raiseFatal .undefinedTrapVector (zext16 vector), rfl, ?_⟩⟩
  · have hnone : field w 0 8 ∉ Config.routineVectors := hvec
    have hundefined : Instr.vectorIsUndefined (field w 0 8) = true := by simpa [Instr.vectorIsUndefined] using hnone
    exact (decode_trap hop rfl).trans (decodeTrap_of_undefined hundefined)
  · exact ⟨rfl, rfl, rfl, rfl, step_of_fatal rfl⟩

end Sys2Proof.Machine

/-! The illegal opcodes (`45_rti_res.md`): the fault record keeps the whole word, and the fatal decode error writes
nothing but that record. -/

namespace Sys2Proof.Machine

/-! ## The fatal decode error (`60_exceptions.md` R152) -/

/-- The fatal decode error changes nothing but the fault record, and that record stops the next step. -/
theorem State.raiseFatal_frame_and_stop (s : State) (cause : FatalCause) (info : Word) :
    let t := s.raiseFatal cause info
    KeepsRegs s t [] ∧ t.pc = s.pc ∧ t.cond = s.cond ∧ KeepsMem s t [] ∧ t.run = s.run ∧ t.console = s.console ∧
      step t = .fault (.fatalDecodeError ⟨cause, info⟩) :=
  ⟨fun _ _ => rfl, rfl, rfl, fun _ _ => rfl, rfl, rfl, step_of_fatal rfl⟩

/-! ## The word in the fault record (log 21) -/

/-- An instruction all of whose bits are assigned has one word, the word it is decoded from. -/
theorem encode_of_decode_eq {w : Word} {i : Instr} (hdecode : decode w = i) (hall : assignedBits i = .allOnes 16) :
    encode i = w := by
  subst hdecode
  have hkept := encodeOfDecodeKeepsTheAssignedBits w
  rwa [hall, BitVec.and_allOnes, BitVec.and_allOnes] at hkept

/-- An instruction that raises the fatal decode error with its own word records the word it is decoded from. -/
theorem exec_decode_records_word {w : Word} {i : Instr} {cause : FatalCause} {s : State} (hdecode : decode w = i)
    (hall : assignedBits i = .allOnes 16) (hexec : exec i s = .next (s.raiseFatal cause (encode i))) :
    ∃ t, exec (decode w) s = .next t ∧ t.fault = some ⟨cause, w⟩ := by
  rw [encode_of_decode_eq hdecode hall, ← hdecode] at hexec
  exact ⟨_, hexec, rfl⟩

/-- A field at bit 0 is what is left of the encoded word when it is cut to the field's width. -/
theorem setWidth_encode {n : Nat} {i : Instr} {low : BitVec n} (h : .bits 0 low ∈ format i) (hn : n ≤ 16) :
    (encode i).setWidth n = low := by
  have hfield : field (encode i) 0 n = low := isWordOf_encode i _ h
  exact (BitVec.setWidth_eq_extractLsb' hn).trans hfield

/-! ## RTI and RES (R140, R141) -/

/-- Settles O59: RTI raises the error with its own word, whose bits below the opcode are the operand. -/
theorem rtiRaisesTheFatalError : Obligations.RtiRaisesTheFatalError := by
  refine ⟨fun w s hop => exec_decode_records_word (i := .rti (field w 0 12)) ?_ rfl rfl, fun low s =>
    ⟨_, encode (.rti low), rfl, rfl, ?_, rfl, s.raiseFatal_frame_and_stop _ _⟩⟩
  · exact decode_of_isWordOf rfl (by simp [IsWordOf, format, hop])
  · exact setWidth_encode (by simp [format]) (by decide)

/-- Settles O60: as RTI, with the cause of RES. -/
theorem resRaisesTheFatalError : Obligations.ResRaisesTheFatalError := by
  refine ⟨fun w s hop => exec_decode_records_word (i := .res (field w 0 12)) ?_ rfl rfl, fun low s =>
    ⟨_, encode (.res low), rfl, rfl, ?_, rfl, s.raiseFatal_frame_and_stop _ _⟩⟩
  · exact decode_of_isWordOf rfl (by simp [IsWordOf, format, hop])
  · exact setWidth_encode (by simp [format]) (by decide)

end Sys2Proof.Machine

/-! The loader (`70_reset_and_hazards.md` R172): what one image leaves in each cell, and what it leaves unchanged. -/

namespace Sys2Proof.Machine

namespace State

/-- Memory is all that an image changes. -/
theorem loadImage_frame (s : State) (origin : Word) (data : List Word) :
    let t := s.loadImage origin data
    t.regs = s.regs ∧ t.pc = s.pc ∧ t.cond = s.cond ∧ KeepsStatus s t ∧ t.console = s.console := by
  induction data generalizing s origin with
  | nil => exact ⟨rfl, rfl, rfl, ⟨rfl, rfl⟩, rfl⟩
  | cons w rest ih => exact ih (s.setCell origin w) (origin + 1)

/-- A cell at none of the image's addresses keeps its word. -/
theorem cell_loadImage_of_ne (s : State) {origin a : Word} {data : List Word}
    (h : ∀ k < data.length, a ≠ origin + BitVec.ofNat 16 k) : (s.loadImage origin data).cell a = s.cell a := by
  induction data generalizing s origin with
  | nil => rfl
  | cons w rest ih =>
    have hfirst : a ≠ origin := by simpa using h 0 (Nat.succ_pos _)
    have hrest : ∀ k < rest.length, a ≠ origin + 1 + BitVec.ofNat 16 k := fun k hk =>
      string_address origin k ▸ h (k + 1) (Nat.succ_lt_succ hk)
    exact (ih (s.setCell origin w) hrest).trans (s.cell_setCell_ne w hfirst)

/-- Fewer than 65,536 steps up from an address do not come back to it. -/
theorem ne_add_ofNat {a : Word} {n : Nat} (hpos : 0 < n) (hn : n < 65536) : a ≠ a + BitVec.ofNat 16 n := by
  bv_omega

/-- An image no longer than memory stores no word over an earlier word of its own, so each word is found at its place. -/
theorem cell_loadImage_getElem (s : State) (origin : Word) {data : List Word} (hlen : data.length ≤ 65536) {k : Nat}
    (hk : k < data.length) : (s.loadImage origin data).cell (origin + BitVec.ofNat 16 k) = data[k] := by
  induction data generalizing s origin k with
  | nil => cases hk
  | cons w rest ih =>
    rw [List.length_cons] at hlen hk
    cases k with
    | zero =>
      have hlater : ∀ j < rest.length, origin ≠ origin + 1 + BitVec.ofNat 16 j := fun j hj =>
        string_address origin j ▸ ne_add_ofNat j.succ_pos (by omega)
      have hkept := cell_loadImage_of_ne (s.setCell origin w) hlater
      simpa [loadImage] using hkept
    | succ j =>
      rw [← string_address]
      exact ih (s.setCell origin w) (origin + 1) (by omega) (by omega)

end State

/-- Settles O30: the words of the image at its addresses, and the two frames. -/
theorem imageIsLoadedAtItsOrigin : Obligations.ImageIsLoadedAtItsOrigin := fun s origin _ hlen =>
  ⟨fun _ hk => s.cell_loadImage_getElem origin hlen hk, fun _ h => s.cell_loadImage_of_ne h, s.loadImage_frame origin _⟩

end Sys2Proof.Machine
